-- ==== Sys2Proof/Word.lean ====
section
/-! DEFINITION. The machine's words: 15-bit data words, 16-bit memory cells, the program counter and register numbers. -/

namespace Sys2Proof

/-- R9, R12, R20: a Word, an unsigned integer `0..32767`: what registers and stack entries hold. -/
abbrev Word := BitVec 15

/-- R9, R30: a raw value `0..65535`, the content of one memory cell. -/
abbrev Cell := BitVec 16

/-- R25: the program counter, `0..32768`, which needs 16 bits. -/
abbrev Pc := BitVec 16

/-- R20: the number of a general register, `0..7`. -/
abbrev RegIndex := Fin 8

end Sys2Proof
end

