-- ==== Sys2Proof/Config.lean ====
section
/-! DEFINITION. The parameters of the implementation (R7, R8). Every one but `STACK_CAPACITY` is fixed for this
hardware (R8). `STACK_CAPACITY` is OPEN: it is carried in `State.stackCapacity` as an argument of the model, and
here stands only its default. The model has no uninterpreted constant: the spec leaves no value of an instruction open. -/

namespace Sys2Proof.Config

/-- R7 `MODULUS` (= 2^`WORD_BITS`): results are reduced modulo this number. -/
@[simp] abbrev modulus : Nat := 32768

/-- R7 `WORD_MAX`. -/
@[simp] abbrev wordMax : Nat := 32767

/-- R7 `MEM_CELLS`: the number of cells of the address space. -/
@[simp] abbrev memCells : Nat := 32768

/-- R7 `NREGS`. -/
@[simp] abbrev numRegs : Nat := 8

/-- R7 `REG_BASE`: the raw value that names register 0 in an operand cell. -/
@[simp] abbrev regBase : Nat := 32768

/-- R7 `MAX_ARITY`: an instruction has at most three operand cells. -/
@[simp] abbrev maxArity : Nat := 3

/-- R7 `ENTRY_PC`, R251. -/
@[simp] abbrev entryPc : Pc := 0#16

/-- R7 `HALT_PC`: the sentinel, one past the last address (R25). -/
@[simp] abbrev haltPc : Pc := 32768#16

/-- R7 `IMAGE_MAX_BYTES`: 32768 words of two bytes. -/
@[simp] abbrev imageMaxBytes : Nat := 65536

/-- R7 `STACK_CAPACITY`, default value: the stack is unbounded (R32, D15). -/
@[simp] abbrev defaultStackCapacity : Option Nat := none

end Sys2Proof.Config
end

