-- ==== Sys2Proof/Syntax.lean ====
section
/-! DEFINITION. The instructions: operand cells in their three classes, and one constructor of `Instr` for each of the
22 rows of the opcode table. -/

namespace Sys2Proof

/-- R81, R89: an operand cell by the class of its raw value. The role of its position decides what it does: a literal is
a number in a value position (R90) and a memory address in a destination position (R91). -/
inductive Operand where
  /-- Raw `0..32767`. -/
  | literal (v : Word)
  /-- Raw `32768..32775`: register `k`. -/
  | register (k : RegIndex)
  /-- Raw `32776..65535`: an invalid operand; using it in either role raises InvalidRegister (R97, R212). -/
  | invalid (raw : Cell)
  deriving DecidableEq, Repr

/-- R86: the 22 instructions with their operand cells `a`, `b`, `c` in order. -/
inductive Instr where
  /-- HALT, opcode 0 (R120). -/
  | halt
  /-- SET a b, opcode 1 (R130). -/
  | set (a b : Operand)
  /-- PUSH a, opcode 2 (R131). -/
  | push (a : Operand)
  /-- POP a, opcode 3 (R132). -/
  | pop (a : Operand)
  /-- EQ a b c, opcode 4 (R140). -/
  | eq (a b c : Operand)
  /-- GT a b c, opcode 5 (R141). -/
  | gt (a b c : Operand)
  /-- JMP a, opcode 6 (R150). -/
  | jmp (a : Operand)
  /-- JT a b, opcode 7 (R151). -/
  | jt (a b : Operand)
  /-- JF a b, opcode 8 (R152). -/
  | jf (a b : Operand)
  /-- ADD a b c, opcode 9 (R165). -/
  | add (a b c : Operand)
  /-- MULT a b c, opcode 10 (R166). -/
  | mult (a b c : Operand)
  /-- MOD a b c, opcode 11 (R167). -/
  | mod (a b c : Operand)
  /-- AND a b c, opcode 12 (R168). -/
  | and (a b c : Operand)
  /-- OR a b c, opcode 13 (R169). -/
  | or (a b c : Operand)
  /-- NOT a b, opcode 14 (R170). -/
  | not (a b : Operand)
  /-- RMEM a b, opcode 15 (R185). -/
  | rmem (a b : Operand)
  /-- WMEM a b, opcode 16 (R186). -/
  | wmem (a b : Operand)
  /-- CALL a, opcode 17 (R153). -/
  | call (a : Operand)
  /-- RET, opcode 18 (R154). -/
  | ret
  /-- OUT a, opcode 19 (R196). -/
  | out (a : Operand)
  /-- IN a, opcode 20 (R199). -/
  | inp (a : Operand)
  /-- NOOP, opcode 21 (R121). -/
  | noop
  deriving DecidableEq, Repr

/-- R100, R101: one entry of the instruction table ROM. -/
structure TableRow where
  /-- The mnemonic's text. -/
  mnemonic : String
  /-- The number of operand cells, `0..3` (R86). -/
  arity : Nat
  /-- Whether operand `a` is a destination; `b` and `c` are always value operands (R88). -/
  aIsDest : Bool
  deriving DecidableEq, Repr

/-- The answer of the decoder. -/
inductive Decoded where
  /-- An instruction, and the cells after it. -/
  | instr (i : Instr) (rest : List Cell)
  /-- R82: the catch-all tag, for an opcode cell above 21. -/
  | invalidOperation (raw : Cell)
  /-- R95 step 4: the cells end before the instruction's last operand. -/
  | missingOperand
  /-- There is no opcode cell. -/
  | noCells
  deriving DecidableEq, Repr

end Sys2Proof
end

