-- ==== Sys2Proof/WellFormed.lean ====
section
/-! DEFINITION. Which instructions hold only legal operands, and which are what the decoder can answer. -/

namespace Sys2Proof

/-- R97: an operand cell that is legal in both roles. -/
def Operand.legal : Operand → Bool
  | .literal _ => true
  | .register _ => true
  | .invalid _ => false

/-- R81: an invalid operand carries a raw value of the invalid range, so that every term is the reading of one cell. -/
def Operand.canonical : Operand → Bool
  | .literal _ => true
  | .register _ => true
  | .invalid raw => decide (Config.regBase + Config.numRegs ≤ raw.toNat)

/-- `p` holds of every operand of the instruction. -/
def Instr.operandsAll (p : Operand → Bool) : Instr → Bool
  | .halt => true
  | .set a b => p a && p b
  | .push a => p a
  | .pop a => p a
  | .eq a b c => p a && p b && p c
  | .gt a b c => p a && p b && p c
  | .jmp a => p a
  | .jt a b => p a && p b
  | .jf a b => p a && p b
  | .add a b c => p a && p b && p c
  | .mult a b c => p a && p b && p c
  | .mod a b c => p a && p b && p c
  | .and a b c => p a && p b && p c
  | .or a b c => p a && p b && p c
  | .not a b => p a && p b
  | .rmem a b => p a && p b
  | .wmem a b => p a && p b
  | .call a => p a
  | .ret => true
  | .out a => p a
  | .inp a => p a
  | .noop => true

/-- A well-formed instruction: no operand cell is invalid (R97). -/
def Instr.wf (i : Instr) : Bool := i.operandsAll Operand.legal

/-- An instruction that some cells encode: a well-formed one, or one with an invalid operand cell, which executes by
raising InvalidRegister (R212). -/
def Instr.encodable (i : Instr) : Bool := i.operandsAll Operand.canonical

end Sys2Proof
end

