-- ==== Sys2Proof/Decode.lean ====
section
/-! DEFINITION. The instruction table ROM (R100), the decoder from cells (R80 to R83, R89) and the encoder, from the same
table of opcode numbers (R86). -/

namespace Sys2Proof

/-- R9 `zext_16`: a Word as the raw value of a cell. -/
def Word.toCell (w : Word) : Cell := BitVec.ofNat 16 w.toNat

/-- The Word a raw value is, if it is one (`0..32767`). -/
def Cell.toWord? (c : Cell) : Option Word :=
  if c.toNat < Config.modulus then some (BitVec.ofNat 15 c.toNat) else none

/-- R81, R89: the class of an operand cell. The test `raw < 32768` stands before the subtraction (R23). -/
def Operand.ofCell (raw : Cell) : Operand :=
  if raw.toNat < Config.regBase then .literal (BitVec.ofNat 15 raw.toNat)
  else if h : raw.toNat - Config.regBase < Config.numRegs then .register ⟨raw.toNat - Config.regBase, h⟩
  else .invalid raw

/-- R22, R89: the raw value of an operand. -/
def Operand.toCell : Operand → Cell
  | .literal v => Word.toCell v
  | .register k => BitVec.ofNat 16 (Config.regBase + k.val)
  | .invalid raw => raw

/-- R86, R88, R101: the instruction table, indexed by opcode number. -/
def instructionTable : List TableRow :=
  [⟨"HALT", 0, false⟩, ⟨"SET", 2, true⟩, ⟨"PUSH", 1, false⟩, ⟨"POP", 1, true⟩, ⟨"EQ", 3, true⟩, ⟨"GT", 3, true⟩,
   ⟨"JMP", 1, false⟩, ⟨"JT", 2, false⟩, ⟨"JF", 2, false⟩, ⟨"ADD", 3, true⟩, ⟨"MULT", 3, true⟩, ⟨"MOD", 3, true⟩] ++
  [⟨"AND", 3, true⟩, ⟨"OR", 3, true⟩, ⟨"NOT", 2, true⟩, ⟨"RMEM", 2, true⟩, ⟨"WMEM", 2, false⟩, ⟨"CALL", 1, false⟩,
   ⟨"RET", 0, false⟩, ⟨"OUT", 1, false⟩, ⟨"IN", 1, true⟩, ⟨"NOOP", 0, false⟩]

/-- R101: the suggested layout of a ROM entry, `arity[1:0] ++ a_is_dest`. -/
def TableRow.romEntry (r : TableRow) : BitVec 3 := BitVec.ofNat 3 (2 * r.arity + (if r.aIsDest then 1 else 0))

/-- R86: the instruction of an opcode number, with its operands; an operand position past the arity is not used. -/
def instrOf (op : Nat) (a b c : Operand) : Option Instr :=
  match op with
  | 0 => some .halt
  | 1 => some (.set a b)
  | 2 => some (.push a)
  | 3 => some (.pop a)
  | 4 => some (.eq a b c)
  | 5 => some (.gt a b c)
  | 6 => some (.jmp a)
  | 7 => some (.jt a b)
  | 8 => some (.jf a b)
  | 9 => some (.add a b c)
  | 10 => some (.mult a b c)
  | 11 => some (.mod a b c)
  | 12 => some (.and a b c)
  | 13 => some (.or a b c)
  | 14 => some (.not a b)
  | 15 => some (.rmem a b)
  | 16 => some (.wmem a b)
  | 17 => some (.call a)
  | 18 => some .ret
  | 19 => some (.out a)
  | 20 => some (.inp a)
  | 21 => some .noop
  | _ => none

/-- The operand in position `n` (counted from 0) of the cells after the opcode cell. -/
def operandAt (cells : List Cell) (n : Nat) : Operand := Operand.ofCell (cells.getD n 0#16)

/-- R82, R83, R95 steps 3 and 4: the decoder. The opcode is the whole first cell; the table gives its arity. -/
def decode : List Cell → Decoded
  | [] => .noCells
  | op :: rest =>
    match instructionTable[op.toNat]?, instrOf op.toNat (operandAt rest 0) (operandAt rest 1) (operandAt rest 2) with
    | some row, some i => if rest.length < row.arity then .missingOperand else .instr i (rest.drop row.arity)
    | _, _ => .invalidOperation op

/-- R86: an instruction's opcode number. -/
def Instr.opcode : Instr → Nat
  | .halt => 0
  | .set _ _ => 1
  | .push _ => 2
  | .pop _ => 3
  | .eq _ _ _ => 4
  | .gt _ _ _ => 5
  | .jmp _ => 6
  | .jt _ _ => 7
  | .jf _ _ => 8
  | .add _ _ _ => 9
  | .mult _ _ _ => 10
  | .mod _ _ _ => 11
  | .and _ _ _ => 12
  | .or _ _ _ => 13
  | .not _ _ => 14
  | .rmem _ _ => 15
  | .wmem _ _ => 16
  | .call _ => 17
  | .ret => 18
  | .out _ => 19
  | .inp _ => 20
  | .noop => 21

/-- R80: an instruction's operands in the order `a`, `b`, `c`. -/
def Instr.operands : Instr → List Operand
  | .halt => []
  | .set a b => [a, b]
  | .push a => [a]
  | .pop a => [a]
  | .eq a b c => [a, b, c]
  | .gt a b c => [a, b, c]
  | .jmp a => [a]
  | .jt a b => [a, b]
  | .jf a b => [a, b]
  | .add a b c => [a, b, c]
  | .mult a b c => [a, b, c]
  | .mod a b c => [a, b, c]
  | .and a b c => [a, b, c]
  | .or a b c => [a, b, c]
  | .not a b => [a, b]
  | .rmem a b => [a, b]
  | .wmem a b => [a, b]
  | .call a => [a]
  | .ret => []
  | .out a => [a]
  | .inp a => [a]
  | .noop => []

/-- R88: the operand in destination role, for the instructions that have one. -/
def Instr.destination? : Instr → Option Operand
  | .halt => none
  | .set a _ => some a
  | .push _ => none
  | .pop a => some a
  | .eq a _ _ => some a
  | .gt a _ _ => some a
  | .jmp _ => none
  | .jt _ _ => none
  | .jf _ _ => none
  | .add a _ _ => some a
  | .mult a _ _ => some a
  | .mod a _ _ => some a
  | .and a _ _ => some a
  | .or a _ _ => some a
  | .not a _ => some a
  | .rmem a _ => some a
  | .wmem _ _ => none
  | .call _ => none
  | .ret => none
  | .out _ => none
  | .inp a => some a
  | .noop => none

/-- R80: the cells of an instruction, the opcode cell first. -/
def encode (i : Instr) : List Cell := BitVec.ofNat 16 i.opcode :: i.operands.map Operand.toCell

/-- The first `n` cells of a number whose low 16 bits are the first cell. -/
def cellsOfNat : Nat → Nat → List Cell
  | 0, _ => []
  | n + 1, w => BitVec.ofNat 16 w :: cellsOfNat n (w / 65536)

/-- The four cells (the longest instruction, R80) of an instruction word of `nbits` bits: the first cell is bits 15..0, the
second bits 31..16, and the bits from `nbits` on are 0. -/
def tableWordCells (nbits w : Nat) : List Cell := cellsOfNat 4 (w % 2 ^ nbits)

/-- The host's reading of an opcode-table word by this decoder. -/
def decodeTableWord (nbits w : Nat) : Option Instr :=
  match decode (tableWordCells nbits w) with
  | .instr i _ => some i
  | .invalidOperation _ => none
  | .missingOperand => none
  | .noCells => none

end Sys2Proof
end

