-- ==== Sys2Proof/Machine/State.lean ====
section
/-! DEFINITION. The machine's state as plain data, the reasons a step can stop, and the state after reset. -/

namespace Sys2Proof.Machine

/-- R30, R50: the memory, as the cells that differ from what an unlisted cell reads as (0, R45): pairs of a cell address
and its content, addresses rising. The smallest addressable unit is the 16-bit cell (R56). -/
abbrev Memory := List (Nat × Cell)

/-- R91: where a destination operand writes. -/
inductive Dest where
  /-- The memory cell of this address. -/
  | cell (a : Word)
  /-- This register. -/
  | reg (k : RegIndex)
  deriving DecidableEq, Repr

/-- R210: the faults the engine raises, each with the offending value where the spec names one (R216). Raising one is
a next state (R215), never a stop of the model. -/
inductive FaultKind where
  /-- The opcode cell is above 21 (R211). -/
  | invalidOperation (raw : Cell)
  /-- An operand cell is above 32775 (R212). -/
  | invalidRegister (raw : Cell)
  /-- A cell address of 32768 or more (R213). -/
  | memOutOfBounds
  /-- POP on an empty stack (R214). -/
  | popFromEmptyStack
  /-- The host answered an IN with a failure (R199). -/
  | readInputErr
  /-- MOD by zero (R167). -/
  | divideByZero
  /-- RMEM of a cell that holds no Word (R185), or CALL at 32766 (R153). -/
  | wordRange (value : Cell)
  /-- A push onto a full stack of finite capacity (R33). -/
  | stackOverflow
  deriving DecidableEq, Repr

/-- R38, R41, R216: the fault record: the fault and the address of the faulting instruction's opcode cell. -/
structure FaultRecord where
  kind : FaultKind
  pc : Pc
  deriving DecidableEq, Repr

/-- R36: the run status. The fault record is part of `Faulted` and has no meaning elsewhere (R41, R45). -/
inductive RunStatus where
  | running
  | halted
  | faulted (r : FaultRecord)
  deriving DecidableEq, Repr

/-- R40: a saved state as the host hands it over. The numbers are the host's and may be out of range (R43, U13). -/
structure Snapshot where
  memory : List Nat
  registers : List Nat
  stack : List Nat
  pc : Nat
  deriving DecidableEq, Repr

/-- R222: errors of the host's own save, load and disassemble commands. -/
inductive HostError where
  | serializeErr
  | deserializeErr
  | ioErr
  deriving DecidableEq, Repr

/-- R230 to R237: the debug port's commands. Numbers are the host's and may be out of range. -/
inductive DebugCommand where
  /-- R231 ReadReg. -/
  | readReg (k : Nat)
  /-- R231 WriteReg. -/
  | writeReg (k v : Nat)
  /-- R232 ReadMem. -/
  | readMem (a : Nat)
  /-- R232 WriteMem. -/
  | writeMem (a v : Nat)
  /-- R233 ReadStack. -/
  | readStack
  /-- R234 Snapshot. -/
  | snapshot
  /-- R235 LoadState. -/
  | loadState (saved : Snapshot)
  /-- R237 `help`. -/
  | help
  /-- R237 `disassemble`. -/
  | disassemble
  /-- R222: a command that failed on the host's side. -/
  | failed (e : HostError)
  deriving DecidableEq, Repr

/-- R197: what the host answers to an outstanding IN request. -/
inductive HostAnswer where
  /-- One input byte. -/
  | byte (b : BitVec 8)
  /-- The input source failed. -/
  | failure
  /-- A debug command; the request stays outstanding. -/
  | command (c : DebugCommand)
  /-- R236: the operator's `exit`. -/
  | exit
  deriving DecidableEq, Repr

/-- What the debug port tells the host about a command. -/
inductive DebugReply where
  /-- R231, R232: the value read. -/
  | value (v : Nat)
  /-- R233: the stack in order, its top last. -/
  | stack (entries : List Word)
  /-- R234: the complete state. -/
  | snapshot (saved : Snapshot)
  /-- The command was carried out. -/
  | done
  /-- An argument is out of range; nothing changed (R231, D14, U9). -/
  | refused
  /-- R232: the address is 32768 or more; nothing changed. -/
  | memOutOfBounds
  /-- R222: the host's own error; nothing changed. -/
  | hostError (e : HostError)
  deriving DecidableEq, Repr

/-- The machine stops with a fault: never. Every fault of the spec (R210) is the entry into `Faulted` (R215), which is a
next state, so this type has no constructor and no step of the model answers a fault. -/
inductive Fault where
  deriving DecidableEq, Repr

/-- Why a step has no meaning. Each stops the model where the hardware may go on, so each is safe. -/
inductive Refusal where
  /-- Raised by an arm of `exec` that has no meaning yet; no arm raises it. Safe. -/
  | notModelled (mnemonic : String)
  /-- Raised by `step` in a Running state whose `pc` is above 32768, which breaks R43 (3): U13 gives it no meaning. Safe. -/
  | stateWithoutMeaning
  /-- Raised by an IN that the host answers with LoadState: R235 and U8 give such a run no meaning. Safe. -/
  | loadStateDuringIn
  deriving DecidableEq, Repr

/-- The state: what the spec gives the block, the two histories of R44, and the model's record of the host's dealings
with the ports (`request` to `started`). -/
structure State where
  /-- R20: `x[0]` to `x[7]`. -/
  regs : Vector Word 8
  /-- R25. -/
  pc : Pc
  /-- R30. -/
  mem : Memory
  /-- R32: the call stack, its top last (R33). -/
  stack : List Word
  /-- R36, R38: the run status, with the fault record once faulted. -/
  status : RunStatus
  /-- R36, R198, R230: the IN that is blocked, by the destination it has already fetched and checked. -/
  request : Option Dest
  /-- R44, R197: the answers the host gives to successive requests, the next one first. -/
  supply : List HostAnswer
  /-- R44, R195: the Words handed to the output port, in program order. -/
  output : List Word
  /-- What the debug port told the host during INs, in order (R231 to R234). -/
  replies : List DebugReply
  /-- R236: the run ended with the outcome ExitRequested. -/
  exitRequested : Bool
  /-- Whether the first instruction cycle has begun (R230, R258). -/
  started : Bool
  /-- R7, R33: the OPEN parameter `STACK_CAPACITY`; no step writes it. -/
  stackCapacity : Option Nat
  deriving DecidableEq, Repr

/-- R45, R250: the state after reset, before any image is loaded. -/
def State.reset : State where
  regs := Vector.replicate 8 0#15
  pc := Config.entryPc
  mem := []
  stack := []
  status := .running
  request := none
  supply := []
  output := []
  replies := []
  exitRequested := false
  started := false
  stackCapacity := Config.defaultStackCapacity

/-- The outcome of a step or of an instruction's meaning. -/
abbrev Result := Host.Outcome State Fault Refusal

end Sys2Proof.Machine
end

