-- ==== Sys2Proof/Machine/Ops.lean ====
section
/-! DEFINITION. The named operations over memory, registers, stack, ports and status, and raising a fault (R215). There
is no return from a fault (R219), so no operation for one stands beside it. -/

namespace Sys2Proof.Machine

/-- R45: what a cell that is not listed reads as. -/
def unlistedCell : Cell := 0#16

/-- The canonical form of memory: cell addresses in range and strictly rising, no entry equal to what an unlisted cell
reads as. -/
abbrev Memory.wf (m : Memory) : Prop :=
  m.Pairwise (fun p q => p.1 < q.1) ∧ ∀ p ∈ m, p.1 < Config.memCells ∧ p.2 ≠ unlistedCell

/-- The content of a cell. -/
def Memory.read (m : Memory) (a : Nat) : Cell :=
  match m with
  | [] => unlistedCell
  | (b, v) :: rest => if a = b then v else Memory.read rest a

/-- The memory with one cell written, in canonical form. -/
def Memory.write (m : Memory) (a : Nat) (v : Cell) : Memory :=
  match m with
  | [] => if v = unlistedCell then [] else [(a, v)]
  | (b, w) :: rest =>
    if a < b then (if v = unlistedCell then (b, w) :: rest else (a, v) :: (b, w) :: rest)
    else if a = b then (if v = unlistedCell then rest else (a, v) :: rest)
    else (b, w) :: Memory.write rest a v

/-- A memory whose cells from address `a` on are the given ones and whose other cells read 0. -/
def Memory.ofCells (a : Nat) (cells : List Cell) : Memory :=
  match cells with
  | [] => []
  | v :: rest => if v = unlistedCell then Memory.ofCells (a + 1) rest else (a, v) :: Memory.ofCells (a + 1) rest

/-- The memory with consecutive cells written from address `a` on; cells past the top of memory are left out. -/
def Memory.writeCells (m : Memory) (a : Nat) (cells : List Cell) : Memory :=
  match cells with
  | [] => m
  | v :: rest => if a < Config.memCells then Memory.writeCells (m.write a v) (a + 1) rest else m

/-- `M[a]` (R10). -/
def State.cellAt (s : State) (a : Nat) : Cell := s.mem.read a

/-- `M[a] <- v` (R10). -/
def State.setCell (s : State) (a : Nat) (v : Cell) : State := { s with mem := s.mem.write a v }

/-- R52: `MemRead(a, 1)`. -/
def State.memRead (s : State) (a : Nat) : Except FaultKind Cell :=
  if a < Config.memCells then .ok (s.cellAt a) else .error .memOutOfBounds

/-- R53: `MemWrite(a, 1, v)` of a Word `v`. -/
def State.memWrite (s : State) (a : Nat) (v : Word) : Except FaultKind State :=
  if a < Config.memCells then .ok (s.setCell a (Word.toCell v)) else .error .memOutOfBounds

/-- `x[k]` (R10, R20). -/
def State.reg (s : State) (k : RegIndex) : Word := s.regs[k]

/-- `x[k] <- v` (R10). Register 0 is an ordinary register (R20). -/
def State.setReg (s : State) (k : RegIndex) (v : Word) : State := { s with regs := s.regs.set k v }

/-- R215, R216: raise a fault: the status becomes `Faulted` with the record, and nothing else changes. -/
def State.raise (s : State) (e : FaultKind) : State := { s with status := .faulted ⟨e, s.pc⟩ }

/-- R37, R120: `status <- Halted; pc <- 32768`. -/
def State.halt (s : State) : State := { s with status := .halted, pc := Config.haltPc }

/-- R26: `pc <- pc + n`, for an instruction of `n` cells. -/
def State.advance (s : State) (n : Nat) : State := { s with pc := s.pc + BitVec.ofNat 16 n }

/-- `pc <- t`, for a Word `t` (R156: every target is an absolute cell address). -/
def State.jump (s : State) (t : Word) : State := { s with pc := Word.toCell t }

/-- R33: whether the stack already has as many entries as a finite `STACK_CAPACITY` allows. -/
def State.stackFull (s : State) : Bool :=
  match s.stackCapacity with
  | none => false
  | some n => decide (n ≤ s.stack.length)

/-- R33: `push(v)`. -/
def State.push (s : State) (v : Word) : Except FaultKind State :=
  if s.stackFull then .error .stackOverflow else .ok { s with stack := s.stack ++ [v] }

/-- R34: `pop()`: the top entry and the state without it, or `none` for the empty result. -/
def State.pop (s : State) : Option (Word × State) :=
  match s.stack.getLast? with
  | none => none
  | some v => some (v, { s with stack := s.stack.dropLast })

/-- R195: `emit(v)`. -/
def State.emit (s : State) (v : Word) : State := { s with output := s.output ++ [v] }

/-- The first instruction cycle has begun (R230, R258). -/
def State.markStarted (s : State) : State := { s with started := true }

/-- R36, R223: the run has ended, and no further instruction executes. -/
def State.ended (s : State) : Bool := s.exitRequested || decide (s.status ≠ .running)

/-- Go on with a value, or raise the fault it failed with (R95: the first fault ends the cycle). -/
def State.orRaise {α : Type} (s : State) (x : Except FaultKind α) (go : α → Result) : Result :=
  match x with
  | .ok v => go v
  | .error e => .next (s.raise e)

/-- The next state a step answers, if it answers one. -/
def nextOf : Result → Option State
  | .next s => some s
  | .fault _ => none
  | .refused _ => none

/-- R210: the ordinal of an engine fault. -/
def FaultKind.ordinal : FaultKind → Nat
  | .invalidOperation _ => 3
  | .invalidRegister _ => 4
  | .memOutOfBounds => 5
  | .popFromEmptyStack => 6
  | .readInputErr => 7
  | .divideByZero => 11
  | .wordRange _ => 12
  | .stackOverflow => 13

/-- R216: `fault.value`, for the faults that carry one; it is unspecified (`none`) for the others. -/
def FaultKind.value? : FaultKind → Option Cell
  | .invalidOperation raw => some raw
  | .invalidRegister raw => some raw
  | .memOutOfBounds => none
  | .popFromEmptyStack => none
  | .readInputErr => none
  | .divideByZero => none
  | .wordRange value => some value
  | .stackOverflow => none

/-- R222: the ordinal of a host-side error. -/
def HostError.ordinal : HostError → Nat
  | .serializeErr => 8
  | .deserializeErr => 9
  | .ioErr => 10

/-- R41: the two bits of `status` the host reads. -/
def RunStatus.code : RunStatus → BitVec 2
  | .running => 0#2
  | .halted => 1#2
  | .faulted _ => 2#2

end Sys2Proof.Machine
end

