-- ==== Sys2Proof/Machine/Operands.lean ====
section
/-! DEFINITION. The two ways an operand cell is interpreted (R89): value operands (R90) and destination operands (R91). -/

namespace Sys2Proof.Machine

/-- R90: `val(w)`: a literal is itself, a register reference its register's content, substituted once. -/
def State.val (s : State) : Operand → Except FaultKind Word
  | .literal v => .ok v
  | .register k => .ok (s.reg k)
  | .invalid raw => .error (.invalidRegister raw)

/-- R91, R95 step 5: the place a destination operand names, never dereferenced (R92); an invalid one faults before the
instruction has any effect. -/
def dst : Operand → Except FaultKind Dest
  | .literal a => .ok (.cell a)
  | .register k => .ok (.reg k)
  | .invalid raw => .error (.invalidRegister raw)

/-- R91: write a Word to a destination. A memory destination is a Word and so in bounds (R55). -/
def State.put (s : State) (d : Dest) (v : Word) : State :=
  match d with
  | .cell a => s.setCell a.toNat (Word.toCell v)
  | .reg k => s.setReg k v

/-- The shape of the instructions `a b` that compute a Word from the value of `b` into the destination `a`: operands in
the order of R95 step 5, then the instruction's own fault, then the one write and the advance by 3. -/
def unaryOp (f : Word → Except FaultKind Word) (a b : Operand) (s : State) : Result :=
  s.orRaise (dst a) fun d =>
  s.orRaise (s.val b) fun u =>
  s.orRaise (f u) fun r =>
  .next ((s.put d r).advance 3)

/-- The shape of the instructions `a b c` that compute a Word from the values of `b` and `c` into the destination `a`. -/
def binaryOp (f : Word → Word → Except FaultKind Word) (a b c : Operand) (s : State) : Result :=
  s.orRaise (dst a) fun d =>
  s.orRaise (s.val b) fun u =>
  s.orRaise (s.val c) fun v =>
  s.orRaise (f u v) fun r =>
  .next ((s.put d r).advance 4)

end Sys2Proof.Machine
end

