-- ==== Sys2Proof/Machine/Flags.lean ====
section
/-! DEFINITION. The hardware has no flags (R39): a comparison is a Word, 0 or 1, and a conditional jump tests a Word against
zero. Here are the two comparisons and the test. -/

namespace Sys2Proof.Machine

/-- R140, R141: the result of a comparison, exactly 1 or 0. -/
def boolWord (p : Bool) : Word := if p then 1#15 else 0#15

/-- R173 `eq(u, v)`. -/
def aluEq (u v : Word) : Word := boolWord (decide (u = v))

/-- R173 `gt(u, v)`: unsigned, strictly greater. -/
def aluGt (u v : Word) : Word := boolWord (decide (v.toNat < u.toNat))

/-- R151, R152: the condition of JT, and the opposite of JF's: any value but zero. -/
def isNonzero (u : Word) : Bool := decide (u ≠ 0#15)

end Sys2Proof.Machine
end

