-- ==== Sys2Proof/Machine/Alu.lean ====
section
/-! DEFINITION. The arithmetic and logic functions (R173) and ADD, MULT, MOD, AND, OR and NOT (spec/44_alu.md). Each
function computes on natural numbers and is then reduced modulo 32768 (R171, R172). -/

namespace Sys2Proof.Machine

/-- R171: a natural number reduced modulo 32768. -/
def reduce (n : Nat) : Word := BitVec.ofNat 15 (n % Config.modulus)

/-- R173 `add(u, v)`. -/
def aluAdd (u v : Word) : Word := reduce (u.toNat + v.toNat)

/-- R173 `mult(u, v)`: the exact product, then reduced (R166). -/
def aluMult (u v : Word) : Word := reduce (u.toNat * v.toNat)

/-- R173 `rem(u, v)`: no value for `v = 0`, where R167 faults. -/
def aluRem (u v : Word) : Except FaultKind Word :=
  if v = 0#15 then .error .divideByZero else .ok (reduce (u.toNat % v.toNat))

/-- R173 `and(u, v)`. -/
def aluAnd (u v : Word) : Word := u &&& v

/-- R173 `or(u, v)`. -/
def aluOr (u v : Word) : Word := u ||| v

/-- R173 `not(u) = 32767 - u`. -/
def aluNot (u : Word) : Word := reduce (Config.wordMax - u.toNat)

/-- R165. -/
def execAdd (a b c : Operand) (s : State) : Result := binaryOp (fun u v => .ok (aluAdd u v)) a b c s

/-- R166. -/
def execMult (a b c : Operand) (s : State) : Result := binaryOp (fun u v => .ok (aluMult u v)) a b c s

/-- R167. -/
def execMod (a b c : Operand) (s : State) : Result := binaryOp aluRem a b c s

/-- R168. -/
def execAnd (a b c : Operand) (s : State) : Result := binaryOp (fun u v => .ok (aluAnd u v)) a b c s

/-- R169. -/
def execOr (a b c : Operand) (s : State) : Result := binaryOp (fun u v => .ok (aluOr u v)) a b c s

/-- R170. -/
def execNot (a b : Operand) (s : State) : Result := unaryOp (fun u => .ok (aluNot u)) a b s

end Sys2Proof.Machine
end

