-- ==== Sys2Proof/Machine/Compare.lean ====
section
/-! DEFINITION. EQ and GT (spec/42_compare.md). -/

namespace Sys2Proof.Machine

/-- R140. -/
def execEq (a b c : Operand) (s : State) : Result := binaryOp (fun u v => .ok (aluEq u v)) a b c s

/-- R141. -/
def execGt (a b c : Operand) (s : State) : Result := binaryOp (fun u v => .ok (aluGt u v)) a b c s

end Sys2Proof.Machine
end

