-- ==== Sys2Proof/Machine/Control.lean ====
section
/-! DEFINITION. JMP, JT, JF, CALL and RET (spec/43_control.md). There are no delay slots (R155). -/

namespace Sys2Proof.Machine

/-- R150. -/
def execJmp (a : Operand) (s : State) : Result :=
  s.orRaise (s.val a) fun t => .next (s.jump t)

/-- R151: `b` is resolved whether or not the jump is taken (R96). -/
def execJt (a b : Operand) (s : State) : Result :=
  s.orRaise (s.val a) fun u =>
  s.orRaise (s.val b) fun t =>
  .next (if isNonzero u then s.jump t else s.advance 3)

/-- R152. -/
def execJf (a b : Operand) (s : State) : Result :=
  s.orRaise (s.val a) fun u =>
  s.orRaise (s.val b) fun t =>
  .next (if isNonzero u then s.advance 3 else s.jump t)

/-- R153: the return address `pc + 2`, if it is a Word. -/
def returnAddress (s : State) : Except FaultKind Word :=
  if s.pc.toNat + 2 ≤ Config.wordMax then .ok (BitVec.ofNat 15 (s.pc.toNat + 2))
  else .error (.wordRange (BitVec.ofNat 16 (s.pc.toNat + 2)))

/-- R153. -/
def execCall (a : Operand) (s : State) : Result :=
  s.orRaise (s.val a) fun t =>
  s.orRaise (returnAddress s) fun r =>
  s.orRaise (s.push r) fun u =>
  .next (u.jump t)

/-- R154: with an empty stack the machine halts. -/
def execRet (s : State) : Result :=
  match s.pop with
  | none => .next s.halt
  | some (t, u) => .next (u.jump t)

end Sys2Proof.Machine
end

