-- ==== Sys2Proof/Machine/Debug.lean ====
section
/-! DEFINITION. The debug port: what each command reads or writes (R230 to R237), and saved states (R40). -/

namespace Sys2Proof.Machine

/-- R40, R234: the complete state as a snapshot; the memory is all 32768 cells, not truncated. -/
def State.save (s : State) : Snapshot where
  memory := (List.range Config.memCells).map fun a => (s.cellAt a).toNat
  registers := s.regs.toList.map BitVec.toNat
  stack := s.stack.map BitVec.toNat
  pc := s.pc.toNat

/-- R43: the snapshot's own part of the state invariants: ranges of cells, registers, stack entries and `pc`, at most 32768
cells (R40), exactly 8 registers. -/
def Snapshot.inRange (saved : Snapshot) : Bool :=
  decide (saved.memory.length ≤ Config.memCells) && saved.memory.all (fun c => decide (c < 65536)) &&
  decide (saved.registers.length = Config.numRegs) && saved.registers.all (fun v => decide (v < Config.modulus)) &&
  saved.stack.all (fun v => decide (v < Config.modulus)) && decide (saved.pc ≤ Config.haltPc.toNat)

/-- R43 (5) and (6): the snapshot keeps this machine's invariants: a finite stack capacity, and the sentinel of a halted
machine. -/
def Snapshot.fits (saved : Snapshot) (s : State) : Bool :=
  (match s.stackCapacity with
    | none => true
    | some n => decide (saved.stack.length ≤ n)) &&
  (decide (s.status ≠ .halted) || decide (saved.pc = Config.haltPc.toNat))

/-- R235: replace memory (zero-padded), registers, stack and `pc` by the snapshot's. -/
def State.load (s : State) (saved : Snapshot) : State :=
  { s with
    mem := Memory.ofCells 0 (saved.memory.map (BitVec.ofNat 16))
    regs := Vector.ofFn fun k => BitVec.ofNat 15 (saved.registers.getD k.val 0)
    stack := saved.stack.map (BitVec.ofNat 15)
    pc := BitVec.ofNat 16 saved.pc }

/-- R231: register write by the host. -/
def debugWriteReg (s : State) (k v : Nat) : State × DebugReply :=
  if h : k < Config.numRegs then
    if v < Config.modulus then (s.setReg ⟨k, h⟩ (BitVec.ofNat 15 v), .done) else (s, .refused)
  else (s, .refused)

/-- R232: memory write by the host: a raw value `0..65535` (D14). -/
def debugWriteMem (s : State) (a v : Nat) : State × DebugReply :=
  if a < Config.memCells then
    if v < 65536 then (s.setCell a (BitVec.ofNat 16 v), .done) else (s, .refused)
  else (s, .memOutOfBounds)

/-- R231: register read by the host. -/
def debugReadReg (s : State) (k : Nat) : DebugReply :=
  if h : k < Config.numRegs then .value (s.reg ⟨k, h⟩).toNat else .refused

/-- R232: memory read by the host. -/
def debugReadMem (s : State) (a : Nat) : DebugReply :=
  match s.memRead a with
  | .ok c => .value c.toNat
  | .error _ => .memOutOfBounds

/-- R235, R43: load a saved state, if it meets the invariants. -/
def debugLoadState (s : State) (saved : Snapshot) : State × DebugReply :=
  if saved.inRange && saved.fits s then (s.load saved, .done) else (s, .refused)

/-- R230 to R237: a debug command carried out on a state. -/
def debugCommand (c : DebugCommand) (s : State) : State × DebugReply :=
  match c with
  | .readReg k => (s, debugReadReg s k)
  | .writeReg k v => debugWriteReg s k v
  | .readMem a => (s, debugReadMem s a)
  | .writeMem a v => debugWriteMem s a v
  | .readStack => (s, .stack s.stack)
  | .snapshot => (s, .snapshot s.save)
  | .loadState saved => debugLoadState s saved
  | .help => (s, .done)
  | .disassemble => (s, .done)
  | .failed e => (s, .hostError e)

/-- R235, U8: the command that has no meaning while an IN is outstanding. -/
def DebugCommand.isLoadState : DebugCommand → Bool
  | .loadState _ => true
  | .readReg _ => false
  | .writeReg _ _ => false
  | .readMem _ => false
  | .writeMem _ _ => false
  | .readStack => false
  | .snapshot => false
  | .help => false
  | .disassemble => false
  | .failed _ => false

/-- A debug command the host gives during an IN: its effect, and its reply kept for the host. -/
def State.debugged (s : State) (c : DebugCommand) : State :=
  { (debugCommand c s).1 with replies := s.replies ++ [(debugCommand c s).2] }

end Sys2Proof.Machine
end

