-- ==== Sys2Proof/Machine/InOut.lean ====
section
/-! DEFINITION. OUT and IN (spec/46_io.md), and what each answer of the host does to an outstanding IN (R197). -/

namespace Sys2Proof.Machine

/-- R196. -/
def execOut (a : Operand) (s : State) : Result :=
  s.orRaise (s.val a) fun v => .next ((s.emit v).advance 2)

/-- R199: a byte completes an IN whose destination is `d`; `rest` are the answers after it. -/
def State.tookByte (s : State) (d : Dest) (rest : List HostAnswer) (b : BitVec 8) : State :=
  (({ s with supply := rest, request := none } : State).put d (BitVec.ofNat 15 b.toNat)).advance 2

/-- R199, R215: a failure answer faults and is left where it stands in the supply. -/
def State.tookFailure (s : State) (rest : List HostAnswer) : State :=
  ({ s with supply := .failure :: rest, request := none } : State).raise .readInputErr

/-- R236: an exit answer ends the run; nothing else changes. -/
def State.tookExit (s : State) (rest : List HostAnswer) : State :=
  { s with supply := rest, request := none, exitRequested := true }

/-- R198: with no answer the IN is blocked. -/
def State.blocked (s : State) (d : Dest) : State := { s with supply := [], request := some d }

/-- R197, R199: serve an IN whose destination is `d` from the host's answers. Debug commands are carried out and leave the
request outstanding; when the answers run out the IN is blocked (R198). -/
def serveInput (d : Dest) (answers : List HostAnswer) (s : State) : Result :=
  match answers with
  | [] => .next (s.blocked d)
  | .byte b :: rest => .next (s.tookByte d rest b)
  | .failure :: rest => .next (s.tookFailure rest)
  | .exit :: rest => .next (s.tookExit rest)
  | .command c :: rest =>
    if c.isLoadState then .refused .loadStateDuringIn else serveInput d rest (s.debugged c)

/-- R199: the destination is checked before the engine asks for input. -/
def execInp (a : Operand) (s : State) : Result :=
  s.orRaise (dst a) fun d => serveInput d s.supply s

/-- R198, R230: a blocked IN goes on with the destination it has already fetched. -/
def resumeInput (d : Dest) (s : State) : Result := serveInput d s.supply s

end Sys2Proof.Machine
end

