-- ==== Sys2Proof/Machine/MemoryAccess.lean ====
section
/-! DEFINITION. RMEM and WMEM (spec/45_memory_access.md). -/

namespace Sys2Proof.Machine

/-- R185: the content of the cell, if it is a Word. -/
def loadWord (s : State) (ea : Word) : Except FaultKind Word :=
  match s.memRead ea.toNat with
  | .error e => .error e
  | .ok d =>
    match Cell.toWord? d with
    | some v => .ok v
    | none => .error (.wordRange d)

/-- R185. -/
def execRmem (a b : Operand) (s : State) : Result := unaryOp (loadWord s) a b s

/-- R186: both operands are value operands; `a` yields the address. -/
def execWmem (a b : Operand) (s : State) : Result :=
  s.orRaise (s.val a) fun ea =>
  s.orRaise (s.val b) fun v =>
  s.orRaise (s.memWrite ea.toNat v) fun t =>
  .next (t.advance 3)

end Sys2Proof.Machine
end

