-- ==== Sys2Proof/Machine/MoveStack.lean ====
section
/-! DEFINITION. SET, PUSH and POP (spec/41_move_stack.md). -/

namespace Sys2Proof.Machine

/-- R130. -/
def execSet (a b : Operand) (s : State) : Result := unaryOp (fun v => .ok v) a b s

/-- R131. -/
def execPush (a : Operand) (s : State) : Result :=
  s.orRaise (s.val a) fun v =>
  s.orRaise (s.push v) fun t =>
  .next (t.advance 2)

/-- R132: the destination is checked before the stack is looked at. -/
def execPop (a : Operand) (s : State) : Result :=
  s.orRaise (dst a) fun d =>
  match s.pop with
  | none => .next (s.raise .popFromEmptyStack)
  | some (v, t) => .next ((t.put d v).advance 2)

end Sys2Proof.Machine
end

