-- ==== Sys2Proof/Machine/System.lean ====
section
/-! DEFINITION. HALT and NOOP (spec/40_system.md). -/

namespace Sys2Proof.Machine

/-- R120. -/
def execHalt (s : State) : Result := .next s.halt

/-- R121. -/
def execNoop (s : State) : Result := .next (s.advance 1)

end Sys2Proof.Machine
end

