-- ==== Sys2Proof/Machine/Fetch.lean ====
section
/-! DEFINITION. Steps 1 to 4 of the instruction cycle (R95): what a state does next. -/

namespace Sys2Proof.Machine

/-- At most `n` cells from address `a` on, fewer at the top of memory. -/
def State.cellsFrom (s : State) (a : Nat) : Nat → List Cell
  | 0 => []
  | n + 1 => if a < Config.memCells then s.cellAt a :: State.cellsFrom s (a + 1) n else []

/-- R80, R95: the cells an instruction at `pc` may use. -/
def State.fetchCells (s : State) : List Cell := s.cellsFrom s.pc.toNat (Config.maxArity + 1)

/-- What a state does next. -/
inductive Action where
  /-- The run has ended: no instruction executes (R36). -/
  | idle
  /-- An IN is outstanding (R198). -/
  | resume (d : Dest)
  /-- R95 step 1: the sentinel. -/
  | sentinel
  /-- The state has no meaning (U13). -/
  | refuse (r : Refusal)
  /-- R95 steps 3 and 4: the cycle ends with a fault before the instruction executes. -/
  | fault (e : FaultKind)
  /-- The instruction at `pc`. -/
  | run (i : Instr)
  deriving DecidableEq, Repr

/-- R95 steps 2 to 4: the instruction at `pc`, or the fault its fetch raises (R218: the opcode is checked first). -/
def State.fetch (s : State) : Action :=
  match decode s.fetchCells with
  | .instr i _ => .run i
  | .invalidOperation raw => .fault (.invalidOperation raw)
  | .missingOperand => .fault .memOutOfBounds
  | .noCells => .fault .memOutOfBounds

/-- R36, R95 step 1, R198. -/
def nextAction (s : State) : Action :=
  if s.ended then .idle
  else
    match s.request with
    | some d => .resume d
    | none =>
      if s.pc = Config.haltPc then .sentinel
      else if Config.memCells < s.pc.toNat then .refuse .stateWithoutMeaning
      else s.fetch

/-- The state whose cells from `pc` on are the given ones, Running and between instructions. -/
def State.placeCells (s : State) (cells : List Cell) : State :=
  { s with
    mem := s.mem.writeCells s.pc.toNat cells
    status := .running
    request := none
    exitRequested := false }

end Sys2Proof.Machine
end

