-- ==== Sys2Proof/Machine/Step.lean ====
section
/-! DEFINITION. One step: one whole instruction (R15, R95). -/

namespace Sys2Proof.Machine

/-- One step of the engine. In a state with no enabled step (the run has ended, or an IN has no answer) it answers that
state unchanged. -/
def step (s : State) : Host.Outcome State Fault Refusal :=
  match nextAction s with
  | .idle => .next s
  | .resume d => resumeInput d s
  | .sentinel => .next s.markStarted.halt
  | .refuse r => .refused r
  | .fault e => .next (s.markStarted.raise e)
  | .run i => exec i s.markStarted

/-- `s` with an instruction word of the opcode table stored in the cells from `pc` on, Running and between instructions. -/
def State.withFetchWord (s : State) (nbits w : Nat) : State := s.placeCells (tableWordCells nbits w)

end Sys2Proof.Machine
end

