-- ==== Sys2Proof/Machine/Load.lean ====
section
/-! DEFINITION. How the host acts on the block outside an instruction: the load of an image (R255 to R259), the debug port
between instructions (R230), and answers to a blocked IN. -/

namespace Sys2Proof.Machine

/-- R221, R256: why the loader refuses an image. -/
inductive LoadError where
  /-- The byte length is odd. -/
  | badBytecodeFormat
  /-- More bytes than the address space holds. -/
  | badBytecodeLength
  deriving DecidableEq, Repr

/-- R221: the ordinal of a load-time error. -/
def LoadError.ordinal : LoadError → Nat
  | .badBytecodeFormat => 1
  | .badBytecodeLength => 2

/-- R56, R257: the words of an image, low byte first. -/
def imageWords : List (BitVec 8) → List Cell
  | low :: high :: rest => BitVec.ofNat 16 (low.toNat + 256 * high.toNat) :: imageWords rest
  | [_] => []
  | [] => []

/-- R255 to R259: the launch state of an image: the length checks, the size first, then the words from address 0 on. A
failed load gives no machine at all (R221). -/
def launch (image : List (BitVec 8)) : Except LoadError State :=
  if Config.imageMaxBytes < image.length then .error .badBytecodeLength
  else if image.length % 2 = 1 then .error .badBytecodeFormat
  else .ok { State.reset with mem := Memory.ofCells 0 (imageWords image) }

/-- R63, R230: the host may use the debug port before the first cycle, while an IN is outstanding, and after the run. -/
def State.portOpen (s : State) : Bool := !s.started || s.ended || s.request.isSome

/-- What the debug port does with a command the host gives outside a step. -/
inductive PortResult where
  /-- Carried out or refused, with the state after it and the reply. -/
  | answered (s : State) (reply : DebugReply)
  /-- The engine is at work: the port is not usable. -/
  | closed
  /-- LoadState while an IN is outstanding (U8). -/
  | noMeaning
  deriving DecidableEq, Repr

/-- R230, R235: a debug command given outside a step. -/
def debugPort (c : DebugCommand) (s : State) : PortResult :=
  if s.portOpen then
    if c.isLoadState && s.request.isSome then .noMeaning
    else .answered (debugCommand c s).1 (debugCommand c s).2
  else .closed

/-- R197: the host gives one more answer to the requests of INs. -/
def State.answered (s : State) (answer : HostAnswer) : State := { s with supply := s.supply ++ [answer] }

end Sys2Proof.Machine
end

