-- ==== Sys2Proof/Machine/Operator.lean ====
section
/-! DEFINITION. The host side of the input port (R200): how an operator's lines become answers to INs. The escape character,
the newline byte and the parsing of a command line are the host's and are not given (U17), so they are arguments. -/

namespace Sys2Proof.Machine

/-- The operator's commands (R222, R231 to R237), after the host has parsed them and read the file they name. -/
inductive OperatorCommand where
  /-- R231 `setreg <register> <value>`. -/
  | setreg (k v : Nat)
  /-- R231 `printreg <register>`. -/
  | printreg (k : Nat)
  /-- R231 `printreg --all`. -/
  | printregAll
  /-- R233 `printstack`. -/
  | printstack
  /-- R234 `save <file>`. -/
  | save
  /-- R235 `load <file>`. -/
  | load (saved : Snapshot)
  /-- R237 `disassemble <file>`. -/
  | disassemble
  /-- R237 `help`, and the usage text of a command with too few arguments. -/
  | help
  /-- R236 `exit`. -/
  | exit
  /-- R222: a command that failed on the host's side. -/
  | failed (e : HostError)
  deriving DecidableEq, Repr

/-- The answers a command gives to the outstanding IN (R197). -/
def OperatorCommand.answers : OperatorCommand → List HostAnswer
  | .setreg k v => [.command (.writeReg k v)]
  | .printreg k => [.command (.readReg k)]
  | .printregAll => (List.range Config.numRegs).map fun k => .command (.readReg k)
  | .printstack => [.command .readStack]
  | .save => [.command .snapshot]
  | .load saved => [.command (.loadState saved)]
  | .disassemble => [.command .disassemble]
  | .help => [.command .help]
  | .exit => [.exit]
  | .failed e => [.command (.failed e)]

/-- R200: a line that begins with the escape character is a command; any other line gives its bytes and then the newline, one
byte to each IN. -/
def lineAnswers (escape newline : BitVec 8) (parse : List (BitVec 8) → OperatorCommand) (line : List (BitVec 8)) :
    List HostAnswer :=
  if line.head? = some escape then (parse line.tail).answers else (line ++ [newline]).map .byte

/-- R200, R44: the input supply of an operator who types these lines. -/
def operatorSupply (escape newline : BitVec 8) (parse : List (BitVec 8) → OperatorCommand)
    (lines : List (List (BitVec 8))) : List HostAnswer :=
  lines.flatMap (lineAnswers escape newline parse)

end Sys2Proof.Machine
end

