-- ==== Sys2Proof/Machine/Text.lean ====
section
/-! DEFINITION. The names the instruction table and the register file have in text (R21, R100, R109). The assembler and the
disassembler are not part of the block (R5, R6). -/

namespace Sys2Proof

/-- R100: from opcode to mnemonic text; no name for a number that is no opcode. -/
def mnemonicOf (op : Nat) : Option String := (instructionTable[op]?).map TableRow.mnemonic

/-- R100: from mnemonic text to opcode; mnemonics are upper case (R105). -/
def opcodeOf (mnemonic : String) : Option Nat := instructionTable.findIdx? fun row => row.mnemonic == mnemonic

/-- R21: the eight fixed register names. -/
def registerNames : Vector String 8 := #v["R0", "R1", "R2", "R3", "R4", "R5", "R6", "R7"]

end Sys2Proof
end

