-- ==== Sys2Proof/Safety.lean ====
section
/-! DEFINITION. What counts as a safe state, how a run ends, and the invariants every run keeps. -/

namespace Sys2Proof.Machine

/-- R223: the ways a run ends. -/
inductive RunOutcome where
  /-- The one successful end. -/
  | halted
  | faulted (r : FaultRecord)
  | exitRequested
  deriving DecidableEq, Repr

/-- R223: how the run of this state ended, if it has. -/
def State.outcome (s : State) : Option RunOutcome :=
  match s.status with
  | .halted => some .halted
  | .faulted r => some (.faulted r)
  | .running => if s.exitRequested then some .exitRequested else none

/-- R217, R223: a claim about a program's result is a claim about a run that ended this way; a faulted state and an exit
are no results. -/
def State.Successful (s : State) : Prop := s.outcome = some .halted

/-- R198: the engine has an enabled step. -/
def State.enabled (s : State) : Bool := !s.ended && (s.request.isNone || !s.supply.isEmpty)

/-- The engine is Running and between instructions: its next step is an instruction cycle (R95). -/
def State.betweenInstructions (s : State) : Bool := !s.ended && s.request.isNone

/-- R43, as far as the types of the fields do not say it already: `pc` is in range, memory is in canonical form, a halted
machine is at the sentinel, a finite stack is not overfull; and for an outstanding IN, its two cells lie in memory. -/
structure State.Inv (s : State) : Prop where
  pcInRange : s.pc.toNat ≤ 32768
  memCanonical : s.mem.wf
  haltedAtSentinel : s.status = .halted → s.pc = 32768#16
  stackFits : ∀ n, s.stackCapacity = some n → s.stack.length ≤ n
  requestInMemory : s.request.isSome = true → s.pc.toNat + 2 ≤ 32768
  faultInMemory : ∀ r, s.status = .faulted r → r.pc.toNat < 32768

end Sys2Proof.Machine
end

