-- ==== Sys2Proof/Certificates/Slice0/Obligations.lean ====
section
/-! DEFINITION. The statements for the provers, in the order of OBLIGATIONS.json. First the shapes several of them share. -/

open Sys2Proof Sys2Proof.Machine

namespace Sys2Proof.Statements

/-- R95 step 4, R213: for an instruction whose operand cells do not all lie in memory, the cycle that finds its opcode
at `pc` ends with MemOutOfBoundsAccess. What becomes of the model's `started` mark is left open here. -/
def FetchFaults (op : Cell) (arity : Nat) : Prop :=
  ∀ s : State, s.betweenInstructions = true → s.pc.toNat < 32768 → s.cellAt s.pc.toNat = op →
    32768 ≤ s.pc.toNat + arity →
    ∃ t, step s = .next t ∧ t = { s with started := t.started, status := .faulted ⟨.memOutOfBounds, s.pc⟩ }

/-- An instruction `a` whose operand is in value role: its cells, the fault of its fetch, and the fault of an invalid
operand cell. -/
def OneValueOperand (op : Cell) (mk : Operand → Instr) : Prop :=
  (∀ a, encode (mk a) = [op, a.toCell]) ∧ FetchFaults op 1 ∧
  ∀ (s : State) (raw : Cell), exec (mk (.invalid raw)) s = .next (s.raise (.invalidRegister raw))

/-- An instruction `a b` with two value operands, resolved in the order `a`, `b`. -/
def TwoValueOperands (op : Cell) (mk : Operand → Operand → Instr) : Prop :=
  (∀ a b, encode (mk a b) = [op, a.toCell, b.toCell]) ∧ FetchFaults op 2 ∧
  (∀ (s : State) (raw : Cell) (b : Operand), exec (mk (.invalid raw) b) s = .next (s.raise (.invalidRegister raw))) ∧
  ∀ (s : State) (a : Operand) (u : Word) (raw : Cell), s.val a = .ok u →
    exec (mk a (.invalid raw)) s = .next (s.raise (.invalidRegister raw))

/-- An instruction `a b` that writes `f` of the value of `b` to the destination `a` and advances by 3: its cells, the
faults of its fetch and of its operand cells, and its next state where `f` has a result. -/
def DestinationAndValue (op : Cell) (mk : Operand → Operand → Instr) (f : State → Word → Option Word) : Prop :=
  (∀ a b, encode (mk a b) = [op, a.toCell, b.toCell]) ∧ FetchFaults op 2 ∧
  (∀ (s : State) (raw : Cell) (b : Operand), exec (mk (.invalid raw) b) s = .next (s.raise (.invalidRegister raw))) ∧
  (∀ (s : State) (a : Operand) (d : Dest) (raw : Cell), dst a = .ok d →
    exec (mk a (.invalid raw)) s = .next (s.raise (.invalidRegister raw))) ∧
  ∀ (s : State) (a b : Operand) (d : Dest) (u r : Word), dst a = .ok d → s.val b = .ok u → f s u = some r →
    exec (mk a b) s = .next { s.put d r with pc := s.pc + 3#16 }

/-- An instruction `a b c` that writes `f` of the values of `b` and `c` to the destination `a` and advances by 4: its
cells, the faults of its fetch and of its operand cells, and its next state where `f` has a result. -/
def DestinationAndTwoValues (op : Cell) (mk : Operand → Operand → Operand → Instr)
    (f : Word → Word → Option Word) : Prop :=
  (∀ a b c, encode (mk a b c) = [op, a.toCell, b.toCell, c.toCell]) ∧ FetchFaults op 3 ∧
  (∀ (s : State) (raw : Cell) (b c : Operand),
    exec (mk (.invalid raw) b c) s = .next (s.raise (.invalidRegister raw))) ∧
  (∀ (s : State) (a : Operand) (d : Dest) (raw : Cell) (c : Operand), dst a = .ok d →
    exec (mk a (.invalid raw) c) s = .next (s.raise (.invalidRegister raw))) ∧
  (∀ (s : State) (a b : Operand) (d : Dest) (u : Word) (raw : Cell), dst a = .ok d → s.val b = .ok u →
    exec (mk a b (.invalid raw)) s = .next (s.raise (.invalidRegister raw))) ∧
  ∀ (s : State) (a b c : Operand) (d : Dest) (u v r : Word), dst a = .ok d → s.val b = .ok u → s.val c = .ok v →
    f u v = some r → exec (mk a b c) s = .next { s.put d r with pc := s.pc + 4#16 }

/-- The host gives no debug command while the machine runs (D14). -/
def NoCommands (s : State) : Prop := ∀ c, HostAnswer.command c ∉ s.supply

/-- The host does not answer an IN with LoadState, which R235 gives no meaning. -/
def NoLoadState (s : State) : Prop := ∀ saved, HostAnswer.command (.loadState saved) ∉ s.supply

/-- Two states agree in everything the ports, the host and the build parameter hold. -/
def PortsUnchanged (s t : State) : Prop :=
  t.request = s.request ∧ t.supply = s.supply ∧ t.replies = s.replies ∧ t.exitRequested = s.exitRequested ∧
  t.started = s.started ∧ t.stackCapacity = s.stackCapacity

/-- The status stays, or becomes `Faulted`. -/
def StatusKeptOrFaulted (s t : State) : Prop := t.status = s.status ∨ ∃ r, t.status = .faulted r

/-- No register changes except one that the destination operand names. -/
def RegistersKeptBut (a : Operand) (s t : State) : Prop := ∀ k, a ≠ .register k → t.reg k = s.reg k

/-- No cell changes except the one the destination operand names: every other address reads as before. -/
def CellsKeptBut (a : Operand) (s t : State) : Prop :=
  ∀ adr, (∀ w : Word, a = .literal w → adr ≠ w.toNat) → t.cellAt adr = s.cellAt adr

/-- The instruction does not name register `k` in any operand. -/
def Unnamed (k : RegIndex) (i : Instr) : Prop := Operand.register k ∉ i.operands

/-- What raises each fault in a state whose next instruction, if its fetch succeeds, is told by `s.fetch` (R210). -/
def Cause (s : State) : FaultKind → Prop
  | .invalidOperation raw => raw = s.cellAt s.pc.toNat ∧ 21 < raw.toNat
  | .invalidRegister raw => ∃ i, s.fetch = .run i ∧ Operand.invalid raw ∈ i.operands ∧ 32775 < raw.toNat
  | .memOutOfBounds =>
    ∃ row, instructionTable[(s.cellAt s.pc.toNat).toNat]? = some row ∧ 32768 ≤ s.pc.toNat + row.arity
  | .popFromEmptyStack => ∃ a, s.fetch = .run (.pop a) ∧ s.stack = []
  | .readInputErr =>
    (s.request.isSome = true ∨ ∃ a, s.fetch = .run (.inp a)) ∧
    ∃ (cmds : List DebugCommand) (rest : List HostAnswer), s.supply = cmds.map .command ++ .failure :: rest
  | .divideByZero => ∃ a b c, s.fetch = .run (.mod a b c) ∧ s.val c = .ok 0#15
  | .wordRange value =>
    (∃ a b ea, s.fetch = .run (.rmem a b) ∧ s.val b = .ok ea ∧ value = s.cellAt ea.toNat ∧ 32767 < value.toNat) ∨
    ∃ a, s.fetch = .run (.call a) ∧ s.pc = 32766#16 ∧ value = 32768#16
  | .stackOverflow =>
    (∃ a, s.fetch = .run (.push a) ∨ s.fetch = .run (.call a)) ∧
    ∃ n, s.stackCapacity = some n ∧ n ≤ s.stack.length

end Sys2Proof.Statements

open Sys2Proof.Statements

/-! ## Encoding and the step -/

/-- R80, R81, R86, R89: every instruction is read back from its cells, whatever cells follow. -/
def Obligations.DecodeOfEncode : Prop :=
  ∀ (i : Instr) (rest : List Cell), i.encodable = true → decode (encode i ++ rest) = .instr i rest

/-- R82, R83: cells have one reading: what decodes to an instruction is that instruction's own cells. -/
def Obligations.DecodedCellsAreTheEncoding : Prop :=
  ∀ (cells rest : List Cell) (i : Instr), decode cells = .instr i rest → cells = encode i ++ rest ∧ i.encodable = true

/-- R86: some words written out from the opcode map decode to the instructions they stand for. -/
def Obligations.SampleWordsDecode : Prop :=
  decodeTableWord 16 0x0000 = some .halt ∧
  decodeTableWord 48 0x000480000001 = some (.set (.register 0) (.literal 4#15)) ∧
  decodeTableWord 64 0x0005800180008002 = none ∧
  decodeTableWord 64 0x0001800180000009 = some (.add (.register 0) (.register 1) (.literal 1#15)) ∧
  decodeTableWord 48 0x800180000010 = some (.wmem (.register 0) (.register 1)) ∧
  decodeTableWord 32 0x00C80011 = some (.call (.literal 200#15)) ∧
  decodeTableWord 32 0x80070014 = some (.inp (.register 7)) ∧
  decodeTableWord 16 0x0015 = some .noop ∧ decodeTableWord 16 0x0016 = none ∧ decodeTableWord 16 0x0100 = none

/-- R86, R88, R100, R101: the table ROM, entry by entry, and its agreement with the instructions: opcode, arity and the
role of operand `a`. The layout of an entry is the spec's own suggestion D25. -/
def Obligations.TableAgreesWithInstructions : Prop :=
  instructionTable.map TableRow.mnemonic =
    ["HALT", "SET", "PUSH", "POP", "EQ", "GT", "JMP", "JT", "JF", "ADD", "MULT", "MOD", "AND", "OR", "NOT", "RMEM",
     "WMEM", "CALL", "RET", "OUT", "IN", "NOOP"] ∧
  instructionTable.map TableRow.romEntry =
    [0b000#3, 0b101#3, 0b010#3, 0b011#3, 0b111#3, 0b111#3, 0b010#3, 0b100#3, 0b100#3, 0b111#3, 0b111#3, 0b111#3,
     0b111#3, 0b111#3, 0b101#3, 0b101#3, 0b100#3, 0b010#3, 0b000#3, 0b010#3, 0b011#3, 0b000#3] ∧
  ∀ i : Instr, ∃ row, instructionTable[i.opcode]? = some row ∧ row.arity = i.operands.length ∧
    (row.aIsDest = true ↔ i.destination? ≠ none) ∧ ∀ a, i.destination? = some a → i.operands.head? = some a

/-- R15, R95: when the cells from `pc` on are those of an instruction, the step is its meaning. The model's `started`
mark is set before it (log entry 12). -/
def Obligations.StepRunsTheDecodedInstruction : Prop :=
  ∀ (s : State) (i : Instr), s.betweenInstructions = true → i.encodable = true →
    s.pc.toNat + (encode i).length ≤ 32768 →
    (∀ n c, (encode i)[n]? = some c → s.cellAt (s.pc.toNat + n) = c) →
    step s = exec i { s with started := true }

/-- R66: what is fetched depends on the four cells from `pc` on as they stand, and on nothing else. -/
def Obligations.FetchReadsTheCellsAsTheyStand : Prop :=
  ∀ s t : State, s.pc = t.pc → (∀ n, n < 4 → s.cellAt (s.pc.toNat + n) = t.cellAt (s.pc.toNat + n)) →
    s.fetch = t.fetch

/-- R211: an opcode cell above 21 raises InvalidOperation with `pc` and the raw cell, and changes nothing else. -/
def Obligations.OpcodeAbove21Faults : Prop :=
  ∀ s : State, s.betweenInstructions = true → s.pc.toNat < 32768 → 21 < (s.cellAt s.pc.toNat).toNat →
    ∃ t, step s = .next t ∧
      t = { s with started := t.started, status := .faulted ⟨.invalidOperation (s.cellAt s.pc.toNat), s.pc⟩ }

/-- R27, R95 step 1: at the sentinel the machine halts without a fetch. That `pc` at 32768 is a halt and no fault is the
spec's own decision D7 (log entry 20, unsafe), and that a Running state can stand there until its next cycle is read from
the spec against the letter of R37 (log entry 11, DEDUCED). -/
def Obligations.SentinelHalts : Prop :=
  ∀ s : State, s.betweenInstructions = true → s.pc = 32768#16 →
    ∃ t, step s = .next t ∧ t = { s with started := t.started, status := .halted }

/-! ## Operands, memory and stack -/

/-- R90: the three arms of value-operand resolution; the third is the spec's own decision D3. -/
def Obligations.ValueOperandArms : Prop :=
  ∀ (s : State) (w : Cell),
    (w.toNat ≤ 32767 → s.val (Operand.ofCell w) = .ok (BitVec.ofNat 15 w.toNat)) ∧
    (∀ h : 32768 ≤ w.toNat ∧ w.toNat ≤ 32775,
      s.val (Operand.ofCell w) = .ok (s.reg ⟨w.toNat - 32768, by omega⟩)) ∧
    (32776 ≤ w.toNat → ∀ go, s.orRaise (s.val (Operand.ofCell w)) go =
      .next { s with status := .faulted ⟨.invalidRegister w, s.pc⟩ })

/-- R91: the three arms of a destination-operand write, each with all it leaves unchanged, in a state whose memory is in
canonical form (an invariant, StepKeepsTheInvariants). That a low destination writes memory is the spec's own decision D2
(log entry 20). -/
def Obligations.DestinationOperandArms : Prop :=
  ∀ (s : State) (w : Cell) (v : Word), s.mem.wf →
    (w.toNat ≤ 32767 → ∃ d, dst (Operand.ofCell w) = .ok d ∧ s.put d v = { s with mem := (s.put d v).mem } ∧
      ∀ a, (s.put d v).cellAt a = if a = w.toNat then BitVec.ofNat 16 v.toNat else s.cellAt a) ∧
    (32768 ≤ w.toNat → w.toNat ≤ 32775 → ∃ d, dst (Operand.ofCell w) = .ok d ∧
      s.put d v = { s with regs := (s.put d v).regs } ∧
      ∀ k : RegIndex, (s.put d v).reg k = if k.val = w.toNat - 32768 then v else s.reg k) ∧
    (32776 ≤ w.toNat → ∀ go, s.orRaise (dst (Operand.ofCell w)) go =
      .next { s with status := .faulted ⟨.invalidRegister w, s.pc⟩ })

/-- R52, R53: the two memory primitives, in bounds and out of bounds, with all a write leaves unchanged, in a state
whose memory is in canonical form. -/
def Obligations.MemReadAndMemWrite : Prop :=
  ∀ (s : State) (a : Nat) (v : Word), s.mem.wf →
    (a < 32768 → s.memRead a = .ok (s.cellAt a) ∧
      ∃ t, s.memWrite a v = .ok t ∧ t = { s with mem := t.mem } ∧
        ∀ b, t.cellAt b = if b = a then BitVec.ofNat 16 v.toNat else s.cellAt b) ∧
    (32768 ≤ a →
      (∀ go, s.orRaise (s.memRead a) go = .next { s with status := .faulted ⟨.memOutOfBounds, s.pc⟩ }) ∧
      ∀ go, s.orRaise (s.memWrite a v) go = .next { s with status := .faulted ⟨.memOutOfBounds, s.pc⟩ })

/-- R62 (2), R30, R45: a read returns the latest write to that cell, and a write leaves every other cell alone; the
write keeps memory in canonical form; and memories in that form that read alike are equal data (log entry 1). -/
def Obligations.CanonicalMemoryLaws : Prop :=
  (∀ (m : Memory) (a b : Nat) (v : Cell), m.wf →
    (m.write a v).read b = (if b = a then v else m.read b) ∧ (a < 32768 → (m.write a v).wf)) ∧
  ∀ m n : Memory, m.wf → n.wf → (∀ a, a < 32768 → m.read a = n.read a) → m = n

/-- R33, R34: a push makes the new top, which a pop gives back; an empty stack pops to the empty result; a full finite
stack overflows, which is the spec's own decision D15. -/
def Obligations.PushAndPop : Prop :=
  ∀ (s : State) (v : Word),
    (s.stackCapacity = none → s.push v = .ok { s with stack := s.stack ++ [v] }) ∧
    (∀ n, s.stackCapacity = some n → s.stack.length < n → s.push v = .ok { s with stack := s.stack ++ [v] }) ∧
    (∀ n, s.stackCapacity = some n → n ≤ s.stack.length → ∀ go, s.orRaise (s.push v) go =
      .next { s with status := .faulted ⟨.stackOverflow, s.pc⟩ }) ∧
    (s.stack = [] → s.pop = none) ∧
    (∀ below, s.stack = below ++ [v] → s.pop = some (v, { s with stack := below }))

/-! ## The instructions -/

/-- R120; that `pc` becomes the sentinel is the spec's own decision D8. -/
def Obligations.HaltEndsTheRun : Prop :=
  encode .halt = [0#16] ∧ ∀ s : State, exec .halt s = .next { s with status := .halted, pc := 32768#16 }

/-- R121. -/
def Obligations.NoopOnlyAdvances : Prop :=
  encode .noop = [21#16] ∧ ∀ s : State, exec .noop s = .next { s with pc := s.pc + 1#16 }

/-- R130. -/
def Obligations.SetCopiesTheValue : Prop :=
  DestinationAndValue 1#16 .set (fun _ v => some v)

/-- R131: PUSH, on a stack with room and on a full one. -/
def Obligations.PushAppendsTheValue : Prop :=
  OneValueOperand 2#16 .push ∧
  ∀ (s : State) (a : Operand) (v : Word), s.val a = .ok v →
    ((∀ n, s.stackCapacity = some n → s.stack.length < n) →
      exec (.push a) s = .next { s with stack := s.stack ++ [v], pc := s.pc + 2#16 }) ∧
    (∀ n, s.stackCapacity = some n → n ≤ s.stack.length → exec (.push a) s = .next (s.raise .stackOverflow))

/-- R132: POP; the operand is checked before the stack is looked at. -/
def Obligations.PopMovesTheTop : Prop :=
  (∀ a, encode (.pop a) = [3#16, a.toCell]) ∧ FetchFaults 3#16 1 ∧
  (∀ (s : State) (raw : Cell), exec (.pop (.invalid raw)) s = .next (s.raise (.invalidRegister raw))) ∧
  ∀ (s : State) (a : Operand) (d : Dest), dst a = .ok d →
    (s.stack = [] → exec (.pop a) s = .next (s.raise .popFromEmptyStack)) ∧
    ∀ below v, s.stack = below ++ [v] →
      exec (.pop a) s = .next { ({ s with stack := below } : State).put d v with pc := s.pc + 2#16 }

/-- R140. -/
def Obligations.EqWritesOneOrZero : Prop :=
  DestinationAndTwoValues 4#16 .eq (fun u v => some (if u = v then 1#15 else 0#15))

/-- R141. -/
def Obligations.GtComparesUnsigned : Prop :=
  DestinationAndTwoValues 5#16 .gt (fun u v => some (if u.toNat > v.toNat then 1#15 else 0#15))

/-- R150. -/
def Obligations.JmpSetsThePc : Prop :=
  OneValueOperand 6#16 .jmp ∧
  ∀ (s : State) (a : Operand) (t : Word), s.val a = .ok t →
    exec (.jmp a) s = .next { s with pc := BitVec.ofNat 16 t.toNat }

/-- R151, R96. -/
def Obligations.JtJumpsOnNonzero : Prop :=
  TwoValueOperands 7#16 .jt ∧
  ∀ (s : State) (a b : Operand) (u t : Word), s.val a = .ok u → s.val b = .ok t →
    exec (.jt a b) s = .next { s with pc := if u.toNat ≠ 0 then BitVec.ofNat 16 t.toNat else s.pc + 3#16 }

/-- R152. -/
def Obligations.JfJumpsOnZero : Prop :=
  TwoValueOperands 8#16 .jf ∧
  ∀ (s : State) (a b : Operand) (u t : Word), s.val a = .ok u → s.val b = .ok t →
    exec (.jf a b) s = .next { s with pc := if u.toNat = 0 then BitVec.ofNat 16 t.toNat else s.pc + 3#16 }

/-- R165. -/
def Obligations.AddReducesTheSum : Prop :=
  DestinationAndTwoValues 9#16 .add (fun u v => some (BitVec.ofNat 15 ((u.toNat + v.toNat) % 32768)))

/-- R166. -/
def Obligations.MultReducesTheProduct : Prop :=
  DestinationAndTwoValues 10#16 .mult (fun u v => some (BitVec.ofNat 15 ((u.toNat * v.toNat) % 32768)))

/-- R167: the remainder, and DivideByZero where the divisor is 0, the spec's own decision D9. -/
def Obligations.ModLeavesTheRemainder : Prop :=
  DestinationAndTwoValues 11#16 .mod
    (fun u v => if v.toNat = 0 then none else some (BitVec.ofNat 15 (u.toNat % v.toNat))) ∧
  ∀ (s : State) (a b c : Operand) (d : Dest) (u : Word), dst a = .ok d → s.val b = .ok u → s.val c = .ok 0#15 →
    exec (.mod a b c) s = .next (s.raise .divideByZero)

/-- R168: bit by bit. -/
def Obligations.AndIsBitwise : Prop :=
  DestinationAndTwoValues 12#16 .and (fun u v => some (BitVec.ofNat 15 (u.toNat &&& v.toNat)))

/-- R169: bit by bit. -/
def Obligations.OrIsBitwise : Prop :=
  DestinationAndTwoValues 13#16 .or (fun u v => some (BitVec.ofNat 15 (u.toNat ||| v.toNat)))

/-- R170. -/
def Obligations.NotComplementsFifteenBits : Prop :=
  DestinationAndValue 14#16 .not (fun _ u => some (BitVec.ofNat 15 (32767 - u.toNat)))

/-- R185: the Word in the cell, and WordRange where the cell holds more than 32767, the spec's own decision D10. -/
def Obligations.RmemLoadsAWord : Prop :=
  DestinationAndValue 15#16 .rmem
    (fun s ea =>
      if 32767 < (s.cellAt ea.toNat).toNat then none else some (BitVec.ofNat 15 (s.cellAt ea.toNat).toNat)) ∧
  ∀ (s : State) (a b : Operand) (d : Dest) (ea : Word), dst a = .ok d → s.val b = .ok ea →
    32767 < (s.cellAt ea.toNat).toNat → exec (.rmem a b) s = .next (s.raise (.wordRange (s.cellAt ea.toNat)))

/-- R186: the cell the value of `a` addresses takes the value of `b`; every other cell and everything else stays. -/
def Obligations.WmemStoresTheValue : Prop :=
  TwoValueOperands 16#16 .wmem ∧
  ∀ (s : State) (a b : Operand) (ea v : Word), s.mem.wf → s.val a = .ok ea → s.val b = .ok v →
    ∃ t, exec (.wmem a b) s = .next t ∧ t = { s with mem := t.mem, pc := s.pc + 3#16 } ∧
      ∀ adr, t.cellAt adr = if adr = ea.toNat then BitVec.ofNat 16 v.toNat else s.cellAt adr

/-- R153: CALL; the return address must be a Word, the spec's own decision D11, then the stack must have room. -/
def Obligations.CallPushesTheReturnAddress : Prop :=
  OneValueOperand 17#16 .call ∧
  ∀ (s : State) (a : Operand) (t : Word), s.val a = .ok t →
    (s.pc = 32766#16 → exec (.call a) s = .next (s.raise (.wordRange 32768#16))) ∧
    (s.pc.toNat ≤ 32765 →
      ((∀ n, s.stackCapacity = some n → s.stack.length < n) → exec (.call a) s =
        .next { s with stack := s.stack ++ [BitVec.ofNat 15 (s.pc.toNat + 2)], pc := BitVec.ofNat 16 t.toNat }) ∧
      (∀ n, s.stackCapacity = some n → n ≤ s.stack.length → exec (.call a) s = .next (s.raise .stackOverflow)))

/-- R154. -/
def Obligations.RetReturnsOrHalts : Prop :=
  encode .ret = [18#16] ∧
  ∀ s : State,
    (s.stack = [] → exec .ret s = .next { s with status := .halted, pc := 32768#16 }) ∧
    ∀ below t, s.stack = below ++ [t] →
      exec .ret s = .next { s with stack := below, pc := BitVec.ofNat 16 t.toNat }

/-- R196. -/
def Obligations.OutEmitsTheValue : Prop :=
  OneValueOperand 19#16 .out ∧
  ∀ (s : State) (a : Operand) (v : Word), s.val a = .ok v →
    exec (.out a) s = .next { s with output := s.output ++ [v], pc := s.pc + 2#16 }

/-- R199: IN by the first answer: a byte is written; a failure faults; with no answer the IN is outstanding; a wrong
destination faults before anything is asked for. That the request is kept in `request` and a failure stays in the supply is
the model's choice (log entries 3 and 5). -/
def Obligations.InWritesTheByte : Prop :=
  (∀ a, encode (.inp a) = [20#16, a.toCell]) ∧ FetchFaults 20#16 1 ∧
  (∀ (s : State) (raw : Cell), exec (.inp (.invalid raw)) s = .next (s.raise (.invalidRegister raw))) ∧
  ∀ (s : State) (a : Operand) (d : Dest) (rest : List HostAnswer), dst a = .ok d →
    (∀ b : BitVec 8, s.supply = .byte b :: rest → exec (.inp a) s =
      .next { ({ s with supply := rest, request := none } : State).put d (BitVec.ofNat 15 b.toNat) with
        pc := s.pc + 2#16 }) ∧
    (s.supply = .failure :: rest →
      exec (.inp a) s = .next (({ s with request := none } : State).raise .readInputErr)) ∧
    (s.supply = [] → exec (.inp a) s = .next { s with request := some d })

/-- R236: an exit answer ends the run with the state as it was, Running at the IN, and no byte written. The model keeps
the outcome in `exitRequested`, takes the answer from the supply, and answers the ended state unchanged from then on (log
entries 2 and 6). -/
def Obligations.ExitEndsTheRunAtTheIn : Prop :=
  ∀ (s : State) (a : Operand) (d : Dest) (rest : List HostAnswer), dst a = .ok d → s.status = .running →
    s.supply = .exit :: rest →
    ∃ t, exec (.inp a) s = .next t ∧ t = { s with supply := rest, request := none, exitRequested := true } ∧
      t.outcome = some .exitRequested ∧ ∀ k, Host.Core.run Sys2Proof.core k t = .next t

/-- R197: a debug command that is not LoadState is carried out with the request still outstanding, and the next answer
then serves the same IN. That one `exec` takes the command and the answers after it together is the model's choice (log
entry 4), and so is that `s.debugged` keeps the command's reply in `replies` (log entry 7). -/
def Obligations.CommandLeavesTheInOutstanding : Prop :=
  ∀ (s : State) (a : Operand) (c : DebugCommand) (rest : List HostAnswer), c.isLoadState = false →
    exec (.inp a) { s with supply := .command c :: rest } =
      (match dst a with
        | .ok _ => exec (.inp a) { s.debugged c with supply := rest }
        | .error e => .next (({ s with supply := .command c :: rest } : State).raise e))

/-- R198: with no answer the IN is blocked, Running, with nothing of the program's state changed, and stays so; and R230:
an answer that comes later is served exactly as if it had been there, whatever commands (other than LoadState) came
before. `cmds` are those commands. That the answers are a list in State, taken by one step, and that a blocked state has a
step, which answers it unchanged, are the model's choices (log entries 3 and 4). -/
def Obligations.BlockingIsTransparent : Prop :=
  ∀ (s : State) (a : Operand) (d : Dest) (cmds : List DebugCommand) (later : List HostAnswer),
    dst a = .ok d → s.betweenInstructions = true → (∀ c ∈ cmds, c.isLoadState = false) →
    ∃ t, exec (.inp a) { s with supply := cmds.map .command } = .next t ∧
      t.status = .running ∧ t.pc = s.pc ∧ t.stack = s.stack ∧ t.output = s.output ∧ t.enabled = false ∧
      (∀ k, Host.Core.run Sys2Proof.core k t = .next t) ∧
      step { t with supply := later } = exec (.inp a) { s with supply := cmds.map .command ++ later }

/-- The two refusals of the model (log entries 8 and 9), each by name: R235 and U8 give no meaning to LoadState as the
answer to an IN; R43 and U13 give none to a Running state whose `pc` is above 32768. -/
def Obligations.WhatHasNoMeaningIsRefused : Prop :=
  (∀ (s : State) (a : Operand) (d : Dest) (saved : Snapshot) (rest : List HostAnswer), dst a = .ok d →
    s.supply = .command (.loadState saved) :: rest → exec (.inp a) s = .refused .loadStateDuringIn) ∧
  ∀ s : State, s.betweenInstructions = true → 32768 < s.pc.toNat → step s = .refused .stateWithoutMeaning

/-! ## Frames -/

/-- The frame of SET, POP, EQ, GT, ADD, MULT, MOD, AND, OR, NOT and RMEM: only the destination operand's register or
cell, the `pc` and the status (by a fault) may change; and for POP the stack's top entry may go. -/
def Obligations.FrameOfInstructionsWithADestination : Prop :=
  ∀ (i : Instr) (a : Operand) (s t : State), i.destination? = some a → i ≠ .inp a → exec i s = .next t →
    RegistersKeptBut a s t ∧ CellsKeptBut a s t ∧
    (t.stack = s.stack ∨ (i = .pop a ∧ t.stack = s.stack.dropLast)) ∧ t.output = s.output ∧
    StatusKeptOrFaulted s t ∧ PortsUnchanged s t

/-- The frame of WMEM: only the cell the value of `a` addresses, the `pc` and the status (by a fault) may change. -/
def Obligations.FrameOfWmem : Prop :=
  ∀ (a b : Operand) (s t : State), exec (.wmem a b) s = .next t →
    (∀ k, t.reg k = s.reg k) ∧
    (∀ adr, (∀ ea, s.val a = .ok ea → adr ≠ ea.toNat) → t.cellAt adr = s.cellAt adr) ∧
    t.stack = s.stack ∧ t.output = s.output ∧ StatusKeptOrFaulted s t ∧ PortsUnchanged s t

/-- The frame of the instructions that write no register and no cell: HALT, PUSH, JMP, JT, JF, CALL, RET, OUT, NOOP. Of the
rest, PUSH and CALL may add an entry to the stack, RET may take the top, OUT may add a Word to the output, and HALT and
RET may halt. -/
def Obligations.FrameOfInstructionsThatStoreNothing : Prop :=
  ∀ (i : Instr) (s t : State), i.destination? = none → (∀ a b, i ≠ .wmem a b) → exec i s = .next t →
    (∀ k, t.reg k = s.reg k) ∧ (∀ adr, t.cellAt adr = s.cellAt adr) ∧
    (t.stack = s.stack ∨ (∃ a v, (i = .push a ∨ i = .call a) ∧ t.stack = s.stack ++ [v]) ∨
      (i = .ret ∧ t.stack = s.stack.dropLast)) ∧
    (t.output = s.output ∨ ∃ a v, i = .out a ∧ t.output = s.output ++ [v]) ∧
    (StatusKeptOrFaulted s t ∨ ((i = .halt ∨ i = .ret) ∧ t.status = .halted)) ∧ PortsUnchanged s t

/-- The frame of IN when the host gives no debug command: only the destination, the `pc`, the status (by a fault) and the
record of the input port may change. -/
def Obligations.FrameOfIn : Prop :=
  ∀ (a : Operand) (s t : State), NoCommands s → exec (.inp a) s = .next t →
    RegistersKeptBut a s t ∧ CellsKeptBut a s t ∧ t.stack = s.stack ∧ t.output = s.output ∧
    StatusKeptOrFaulted s t ∧ t.replies = s.replies ∧ t.started = s.started ∧ t.stackCapacity = s.stackCapacity ∧
    (t.supply = s.supply ∨ t.supply = s.supply.tail)

/-! ## The whole machine -/

/-- R43: every step keeps the state invariants. -/
def Obligations.StepKeepsTheInvariants : Prop :=
  ∀ s t : State, s.Inv → step s = .next t → t.Inv

/-- R43, R45: the reset state meets the invariants. -/
def Obligations.ResetMeetsTheInvariants : Prop := State.reset.Inv

/-- Every state that meets the invariants has a next state, unless the host loads a state into a blocked IN (log entry 8): no
instruction, operand or datum stops the model. R36 and R198 give an ended run and a blocked IN no enabled step: that such
a state has a next state, itself, is the model's choice (log entries 2 and 3). -/
def Obligations.EveryStepCompletes : Prop :=
  ∀ s : State, s.Inv → NoLoadState s → ∃ t, step s = .next t

/-- R215, R216: a fault changes the status and nothing else, and its record holds the address of the opcode cell; `cmds` are
the debug commands the host gave to an IN before it failed, whose effects are the host's own and stay (R63, R222, log
entry 5). The model's `started` and `request` are left open here. -/
def Obligations.FaultsArePrecise : Prop :=
  ∀ (s t : State) (r : FaultRecord), s.status = .running → step s = .next t → t.status = .faulted r →
    r.pc = s.pc ∧ ∃ (cmds : List DebugCommand) (rest : List HostAnswer), s.supply = cmds.map .command ++ rest ∧
      t = { cmds.foldl State.debugged s with
            supply := rest, started := t.started, request := t.request, status := .faulted r } ∧
      (cmds = [] ∨ s.request.isSome = true ∨ ∃ a, s.fetch = .run (.inp a))

/-- R210: every fault a step raises has the cause the table of R210 gives it. -/
def Obligations.EveryFaultHasItsCause : Prop :=
  ∀ (s t : State) (r : FaultRecord), s.status = .running → step s = .next t → t.status = .faulted r → Cause s r.kind

/-- R36, R37, R223: a run ends successfully only by the sentinel, HALT, or RET on an empty stack, and then `pc` is the
sentinel. -/
def Obligations.OnlyThreeWaysToHalt : Prop :=
  ∀ s t : State, s.status = .running → step s = .next t → t.Successful →
    t.pc = 32768#16 ∧ (s.pc = 32768#16 ∨ s.fetch = .run .halt ∨ (s.fetch = .run .ret ∧ s.stack = []))

/-- R36, R217, R223: a run that has ended (halted, faulted or by an exit) stays as it is for ever. That such a state has a
step, which answers it unchanged, is the model's choice (log entry 2). -/
def Obligations.EndedRunsStayAsTheyAre : Prop :=
  ∀ (s : State) (k : Nat), s.outcome ≠ none → Host.Core.run Sys2Proof.core k s = .next s

/-- R32: of all instructions only PUSH, POP, CALL and RET reach the stack: no other changes it, and no other depends on what
it holds. The second clause leaves out the host's debug commands, which reach the stack too (R32, R233). -/
def Obligations.OnlyFourInstructionsReachTheStack : Prop :=
  ∀ i : Instr, (∀ a, i ≠ .push a) → (∀ a, i ≠ .pop a) → (∀ a, i ≠ .call a) → i ≠ .ret →
    (∀ s t : State, exec i s = .next t → t.stack = s.stack) ∧
    ∀ (s : State) (other : List Word), NoCommands s →
      nextOf (exec i { s with stack := other }) = (nextOf (exec i s)).map (fun t => { t with stack := other })

/-- R31: a step writes only Words into cells, unless the host writes one by a debug command. -/
def Obligations.EngineWritesOnlyWords : Prop :=
  ∀ (s t : State) (a : Nat), s.mem.wf → NoCommands s → step s = .next t →
    t.cellAt a = s.cellAt a ∨ (t.cellAt a).toNat ≤ 32767

/-- R20: an instruction neither reads nor writes a register that its operands do not name. -/
def Obligations.UnnamedRegistersDoNotMatter : Prop :=
  ∀ (i : Instr) (k : RegIndex) (v : Word) (s : State), Unnamed k i → NoCommands s →
    nextOf (exec i (s.setReg k v)) = (nextOf (exec i s)).map (fun t => t.setReg k v)

/-- R174: the ALU's identities, which the spec derives from R173. -/
def Obligations.AluIdentities : Prop :=
  ∀ u v w : Word,
    aluAdd u v = aluAdd v u ∧ aluAdd (aluAdd u v) w = aluAdd u (aluAdd v w) ∧
    aluMult u v = aluMult v u ∧ aluMult (aluMult u v) w = aluMult u (aluMult v w) ∧
    aluMult u (aluAdd v w) = aluAdd (aluMult u v) (aluMult u w) ∧
    aluAdd u 0#15 = u ∧ aluMult u 1#15 = u ∧ aluMult u 0#15 = 0#15 ∧
    aluAdd u (aluAdd (aluNot u) 1#15) = 0#15 ∧ aluNot (aluNot u) = u ∧
    aluAnd u (aluNot u) = 0#15 ∧ aluOr u (aluNot u) = 32767#15 ∧
    (∀ r, aluRem u v = .ok r → r.toNat < v.toNat) ∧ (u.toNat < v.toNat → aluRem u v = .ok u)

/-! ## Reset, the loader and the debug port -/

/-- R45: the reset values of the registers, every cell, the stack, `pc`, the status and the output history; and a machine
that is reset and started with no image halts at its first instruction cycle. -/
def Obligations.ResetValues : Prop :=
  (∀ k, State.reset.reg k = 0#15) ∧ (∀ a, State.reset.cellAt a = 0#16) ∧ State.reset.stack = [] ∧
  State.reset.pc = 0#16 ∧ State.reset.status = .running ∧ State.reset.output = [] ∧
  ∃ t, step State.reset = .next t ∧ t = { State.reset with started := t.started, status := .halted, pc := 32768#16 }

/-- R256, R257, R259: the loader's length checks, and the launch state: word `i` of the image, low byte first, in cell
`i`, the other cells 0, and nothing but memory written (the spec's own decision D18). -/
def Obligations.ImageIsLaunchedFromZero : Prop :=
  ∀ image : List (BitVec 8),
    (65536 < image.length → launch image = .error .badBytecodeLength) ∧
    (image.length ≤ 65536 → image.length % 2 = 1 → launch image = .error .badBytecodeFormat) ∧
    (image.length ≤ 65536 → image.length % 2 = 0 → ∃ s, launch image = .ok s ∧ s = { State.reset with mem := s.mem } ∧
      (∀ i low high, image[2 * i]? = some low → image[2 * i + 1]? = some high →
        (s.cellAt i).toNat = low.toNat + 256 * high.toNat) ∧
      (∀ i, image.length ≤ 2 * i → s.cellAt i = 0#16) ∧ s.Inv)

/-- R234, R235: a snapshot changes nothing, and loading what was just saved changes nothing. -/
def Obligations.SaveThenLoadIsTheIdentity : Prop :=
  ∀ s : State, s.Inv → s.portOpen = true → s.request = none →
    debugPort .snapshot s = .answered s (.snapshot s.save) ∧ debugPort (.loadState s.save) s = .answered s .done

/-- R235, R43: LoadState replaces memory (zero-padded), registers, stack and `pc` by the snapshot's, and nothing else, when
the snapshot meets the invariants; otherwise it changes nothing. -/
def Obligations.LoadStateReplacesOrIsRefused : Prop :=
  ∀ (s : State) (saved : Snapshot),
    (saved.inRange = true → saved.fits s = true → ∃ t, debugCommand (.loadState saved) s = (t, .done) ∧
      t = { s with mem := t.mem, regs := t.regs, stack := t.stack, pc := t.pc } ∧
      (∀ a, (t.cellAt a).toNat = saved.memory.getD a 0) ∧
      (∀ k : RegIndex, (t.reg k).toNat = saved.registers.getD k.val 0) ∧
      t.stack.map BitVec.toNat = saved.stack ∧ t.pc.toNat = saved.pc ∧ t.mem.wf) ∧
    ((saved.inRange && saved.fits s) = false → debugCommand (.loadState saved) s = (s, .refused))

/-- R231, R232, R233: reads and writes through the debug port, with the refusals of arguments out of range, which
are the spec's own decision D14 (log entry 16). -/
def Obligations.DebugPortReadsAndWrites : Prop :=
  ∀ s : State,
    (∀ k : RegIndex, debugCommand (.readReg k.val) s = (s, .value (s.reg k).toNat)) ∧
    (∀ k, 8 ≤ k → debugCommand (.readReg k) s = (s, .refused)) ∧
    (∀ (k : RegIndex) (v : Word), debugCommand (.writeReg k.val v.toNat) s = (s.setReg k v, .done)) ∧
    (∀ k v, 8 ≤ k ∨ 32768 ≤ v → debugCommand (.writeReg k v) s = (s, .refused)) ∧
    (∀ a, a < 32768 → debugCommand (.readMem a) s = (s, .value (s.cellAt a).toNat)) ∧
    (∀ a (v : Cell), a < 32768 → debugCommand (.writeMem a v.toNat) s = (s.setCell a v, .done)) ∧
    (∀ a v, a < 32768 → 65536 ≤ v → debugCommand (.writeMem a v) s = (s, .refused)) ∧
    (∀ a v, 32768 ≤ a → debugCommand (.readMem a) s = (s, .memOutOfBounds) ∧
      debugCommand (.writeMem a v) s = (s, .memOutOfBounds)) ∧
    debugCommand .readStack s = (s, .stack s.stack) ∧
    (∀ c : DebugCommand, c.isLoadState = false → (debugCommand c s).1.stack = s.stack)

/-- R63, R230: the host cannot use the debug port while the engine is at work. -/
def Obligations.PortIsClosedWhileTheEngineWorks : Prop :=
  ∀ (s : State) (c : DebugCommand), s.started = true → s.betweenInstructions = true → debugPort c s = .closed
end

