-- ==== Sys2Proof/Laws/Decode.lean ====
section
/-! SUPPORT. Operand cells and their classes are the same thing read two ways, and what the decoder answers. -/

namespace Sys2Proof

theorem Operand.toCell_toNat_literal (v : Word) : (Operand.literal v).toCell.toNat = v.toNat := by
  have := v.isLt
  simp only [Operand.toCell, Word.toCell, BitVec.toNat_ofNat]
  omega

theorem Operand.toCell_toNat_register (k : RegIndex) : (Operand.register k).toCell.toNat = 32768 + k.val := by
  have := k.isLt
  simp only [Operand.toCell, Config.regBase, BitVec.toNat_ofNat]
  omega

theorem Operand.ofCell_low {w : Cell} (h : w.toNat < 32768) :
    Operand.ofCell w = .literal (BitVec.ofNat 15 w.toNat) := by
  simp only [Operand.ofCell, Config.regBase, if_pos h]

theorem Operand.ofCell_register {w : Cell} (h : 32768 ≤ w.toNat) (h' : w.toNat - 32768 < 8) :
    Operand.ofCell w = .register ⟨w.toNat - 32768, h'⟩ := by
  simp only [Operand.ofCell, Config.regBase, Config.numRegs, if_neg (Nat.not_lt.2 h), dif_pos h']

theorem Operand.ofCell_invalid {w : Cell} (h : 32776 ≤ w.toNat) : Operand.ofCell w = .invalid w := by
  simp only [Operand.ofCell, Config.regBase, Config.numRegs, if_neg (show ¬ w.toNat < 32768 by omega),
    dif_neg (show ¬ w.toNat - 32768 < 8 by omega)]

/-- R89: an operand is read back from its cell. -/
theorem Operand.ofCell_toCell {o : Operand} (h : o.canonical = true) : Operand.ofCell o.toCell = o := by
  cases o with
  | literal v =>
    have hv := Operand.toCell_toNat_literal v
    rw [Operand.ofCell_low (by have := v.isLt; omega), hv]
    simp
  | register k =>
    have hk := Operand.toCell_toNat_register k
    have := k.isLt
    rw [Operand.ofCell_register (by omega) (by omega)]
    simp [hk]
  | invalid w =>
    have hw : 32776 ≤ w.toNat := by simpa [Operand.canonical] using h
    exact Operand.ofCell_invalid hw

/-- R89: a cell is given back by the operand read from it. -/
theorem Operand.toCell_ofCell (w : Cell) : (Operand.ofCell w).toCell = w ∧ (Operand.ofCell w).canonical = true := by
  by_cases h1 : w.toNat < 32768
  · rw [Operand.ofCell_low h1]
    refine ⟨BitVec.eq_of_toNat_eq ?_, rfl⟩
    rw [Operand.toCell_toNat_literal, BitVec.toNat_ofNat]
    omega
  · by_cases h2 : w.toNat - 32768 < 8
    · rw [Operand.ofCell_register (by omega) h2]
      refine ⟨BitVec.eq_of_toNat_eq ?_, rfl⟩
      rw [Operand.toCell_toNat_register]
      show 32768 + (w.toNat - 32768) = w.toNat
      omega
    · rw [Operand.ofCell_invalid (by omega)]
      exact ⟨rfl, by simp [Operand.canonical]; omega⟩

/-- R86: opcode numbers are `0..21`, and so fit a cell. -/
theorem Instr.opcode_lt (i : Instr) : i.opcode < 22 := by cases i <;> simp [Instr.opcode]

theorem Instr.opcode_toNat (i : Instr) : (BitVec.ofNat 16 i.opcode).toNat = i.opcode := by
  have := i.opcode_lt
  rw [BitVec.toNat_ofNat]
  omega

/-- R82, R100: below 22 the table has an entry and an opcode an instruction; from 22 on neither. -/
theorem instrOf_isSome_iff (op : Nat) (a b c : Operand) : (instrOf op a b c).isSome = true ↔ op < 22 := by
  constructor
  · intro h
    by_contra hop
    obtain ⟨n, rfl⟩ : ∃ n, op = n + 22 := ⟨op - 22, by omega⟩
    simp [instrOf] at h
  · intro h
    interval_cases op <;> rfl

/-- The decoder on an opcode cell and what follows it. -/
theorem decode_cons (op : Cell) (cs : List Cell) :
    decode (op :: cs) =
      match instructionTable[op.toNat]?, instrOf op.toNat (operandAt cs 0) (operandAt cs 1) (operandAt cs 2) with
      | some row, some i => if cs.length < row.arity then .missingOperand else .instr i (cs.drop row.arity)
      | _, _ => .invalidOperation op := rfl

/-- R80, R83: what the decoder answers: the cells are the opcode cell, as many operand cells as the instruction has, and
the rest. -/
theorem decode_instr {cells rest : List Cell} {i : Instr} (h : decode cells = .instr i rest) :
    cells = encode i ++ rest ∧ i.encodable = true := by
  cases cells with
  | nil => simp [decode] at h
  | cons op cs =>
    rw [decode_cons] at h
    split at h
    · rename_i row j hrow hj
      split at h
      · cases h
      · rename_i hlen
        have hop : op.toNat < 22 := (instrOf_isSome_iff ..).1 (by rw [hj]; rfl)
        have hcell : op = BitVec.ofNat 16 op.toNat := by simp
        injection h with h1 h2
        subst h1 h2
        generalize op.toNat = n at *
        interval_cases n <;> cases hrow <;> cases hj <;> rcases cs with _ | ⟨x, _ | ⟨y, _ | ⟨z, cs⟩⟩⟩ <;>
          simp_all [encode, Instr.opcode, Instr.operands, Instr.encodable, Instr.operandsAll, operandAt,
            Operand.toCell_ofCell]
    · cases h

/-- R82: the decoder answers the catch-all tag only for an opcode above 21. -/
theorem decode_invalidOperation {op raw : Cell} {cs : List Cell} (h : decode (op :: cs) = .invalidOperation raw) :
    raw = op ∧ 21 < op.toNat := by
  rw [decode_cons] at h
  split at h
  · split at h <;> cases h
  · rename_i hno
    injection h with h
    refine ⟨h.symm, ?_⟩
    by_contra hop
    have hs := (instrOf_isSome_iff op.toNat (operandAt cs 0) (operandAt cs 1) (operandAt cs 2)).2 (by omega)
    obtain ⟨i, hi⟩ := Option.isSome_iff_exists.1 hs
    have hlt : op.toNat < instructionTable.length := by show _ < 22; omega
    exact hno _ i (List.getElem?_eq_getElem hlt) hi

/-- R82: an opcode above 21 is the catch-all tag. -/
theorem decode_of_21_lt {op : Cell} (h : 21 < op.toNat) (cs : List Cell) :
    decode (op :: cs) = .invalidOperation op := by
  have hlen : instructionTable.length ≤ op.toNat := by show 22 ≤ _; omega
  rw [decode_cons, List.getElem?_eq_none hlen]

/-- R95 step 4: the decoder finds too few cells only for an opcode whose arity exceeds their number. -/
theorem decode_missingOperand {op : Cell} {cs : List Cell} (h : decode (op :: cs) = .missingOperand) :
    ∃ row, instructionTable[op.toNat]? = some row ∧ cs.length < row.arity := by
  rw [decode_cons] at h
  split at h
  · rename_i row i hrow _
    split at h
    · exact ⟨row, hrow, ‹_›⟩
    · cases h
  · cases h

end Sys2Proof
end

