-- ==== Sys2Proof/Laws/Memory.lean ====
section
/-! SUPPORT. The laws of memory: what a read sees after a write, that every memory operation keeps the canonical form, and
that a canonical memory is determined by what it reads. -/

namespace Sys2Proof.Machine

theorem Memory.read_nil (a : Nat) : Memory.read [] a = unlistedCell := rfl

theorem Memory.read_cons (p : Nat × Cell) (m : Memory) (a : Nat) :
    Memory.read (p :: m) a = if a = p.1 then p.2 else m.read a := rfl

/-- An address below every listed one reads as an unlisted cell. -/
theorem Memory.read_below {m : Memory} {a : Nat} (h : ∀ p ∈ m, a < p.1) : m.read a = unlistedCell := by
  induction m with
  | nil => rfl
  | cons p m ih =>
    have hp := h p (by simp)
    rw [Memory.read_cons, if_neg (by omega), ih fun q hq => h q (by simp [hq])]

theorem Memory.wf_nil : Memory.wf [] := ⟨List.Pairwise.nil, by simp⟩

theorem Memory.wf_cons (p : Nat × Cell) (m : Memory) :
    Memory.wf (p :: m) ↔ (∀ q ∈ m, p.1 < q.1) ∧ p.1 < 32768 ∧ p.2 ≠ unlistedCell ∧ m.wf := by
  simp only [Memory.wf, List.pairwise_cons, List.forall_mem_cons, Config.memCells]
  tauto

/-- A write leaves every other cell alone, in any memory. -/
theorem Memory.read_write_ne (m : Memory) {a b : Nat} (v : Cell) (h : b ≠ a) : (m.write a v).read b = m.read b := by
  induction m with
  | nil =>
    unfold Memory.write
    split
    · rfl
    · rw [Memory.read_cons, if_neg h]
  | cons p m ih =>
    unfold Memory.write
    split
    · split
      · rfl
      · rw [Memory.read_cons, if_neg h]
    · split
      · rename_i h2
        subst h2
        split
        · rw [Memory.read_cons, if_neg h]
        · rw [Memory.read_cons, if_neg h, Memory.read_cons, if_neg h]
      · rw [Memory.read_cons, Memory.read_cons, ih]

/-- A read of the cell just written gives the value written, in a memory whose addresses rise. -/
theorem Memory.read_write_self {m : Memory} (hm : m.Pairwise fun p q => p.1 < q.1) (a : Nat) (v : Cell) :
    (m.write a v).read a = v := by
  induction m with
  | nil =>
    unfold Memory.write
    split
    · rename_i hv; rw [hv]; rfl
    · rw [Memory.read_cons, if_pos rfl]
  | cons p m ih =>
    obtain ⟨below, hm'⟩ := List.pairwise_cons.1 hm
    unfold Memory.write
    split
    · rename_i h1
      split
      · rename_i hv
        rw [hv, Memory.read_below fun q hq => ?_]
        rcases List.mem_cons.1 hq with rfl | hq
        · exact h1
        · exact Nat.lt_trans h1 (below q hq)
      · rw [Memory.read_cons, if_pos rfl]
    · split
      · rename_i h2
        split
        · rename_i hv
          rw [hv, Memory.read_below fun q hq => h2 ▸ below q hq]
        · rw [Memory.read_cons, if_pos rfl]
      · rename_i h2
        rw [Memory.read_cons, if_neg h2, ih hm']

/-- A read after a write, in a memory whose addresses rise. -/
theorem Memory.read_write {m : Memory} (hm : m.Pairwise fun p q => p.1 < q.1) (a b : Nat) (v : Cell) :
    (m.write a v).read b = if b = a then v else m.read b := by
  by_cases h : b = a
  · subst h; rw [if_pos rfl, Memory.read_write_self hm]
  · rw [if_neg h, Memory.read_write_ne m v h]

/-- Every entry after a write was there before, or is the one written. -/
theorem Memory.mem_write {m : Memory} {a : Nat} {v : Cell} {q : Nat × Cell} (h : q ∈ m.write a v) :
    q ∈ m ∨ (q = (a, v) ∧ v ≠ unlistedCell) := by
  induction m with
  | nil =>
    unfold Memory.write at h
    split_ifs at h with hv
    · simp at h
    · simp only [List.mem_singleton] at h; exact .inr ⟨h, hv⟩
  | cons p m ih =>
    unfold Memory.write at h
    split_ifs at h with h1 hv h2 hv
    · exact .inl h
    · rcases List.mem_cons.1 h with h | h
      · exact .inr ⟨h, hv⟩
      · exact .inl h
    · exact .inl (List.mem_cons_of_mem _ h)
    · rcases List.mem_cons.1 h with h | h
      · exact .inr ⟨h, hv⟩
      · exact .inl (List.mem_cons_of_mem _ h)
    · rcases List.mem_cons.1 h with h | h
      · exact .inl (h ▸ List.mem_cons_self)
      · exact (ih h).imp_left (List.mem_cons_of_mem _)

/-- A write in range keeps the canonical form. -/
theorem Memory.wf_write {m : Memory} (hm : m.wf) {a : Nat} (ha : a < 32768) (v : Cell) : (m.write a v).wf := by
  induction m with
  | nil =>
    unfold Memory.write
    split_ifs with hv
    · exact Memory.wf_nil
    · exact (Memory.wf_cons _ _).2 ⟨by simp, ha, hv, Memory.wf_nil⟩
  | cons p m ih =>
    obtain ⟨below, hp, hw, hm'⟩ := (Memory.wf_cons _ _).1 hm
    unfold Memory.write
    split_ifs with h1 hv h2 hv
    · exact hm
    · refine (Memory.wf_cons _ _).2 ⟨fun q hq => ?_, ha, hv, hm⟩
      rcases List.mem_cons.1 hq with rfl | hq
      · exact h1
      · exact Nat.lt_trans h1 (below q hq)
    · exact hm'
    · subst h2; exact (Memory.wf_cons _ _).2 ⟨below, hp, hv, hm'⟩
    · refine (Memory.wf_cons _ _).2 ⟨fun q hq => ?_, hp, hw, ih hm'⟩
      rcases Memory.mem_write hq with hq | ⟨rfl, -⟩
      · exact below q hq
      · show _ < a
        omega

/-- A canonical memory is determined by what it reads. -/
theorem Memory.ext_of_read {m n : Memory} (hm : m.wf) (hn : n.wf) (h : ∀ a, m.read a = n.read a) : m = n := by
  induction m generalizing n with
  | nil =>
    cases n with
    | nil => rfl
    | cons q n =>
      obtain ⟨-, -, hq, -⟩ := (Memory.wf_cons _ _).1 hn
      have := h q.1
      rw [Memory.read_nil, Memory.read_cons, if_pos rfl] at this
      exact absurd this.symm hq
  | cons p m ih =>
    obtain ⟨pb, -, hp, hm'⟩ := (Memory.wf_cons _ _).1 hm
    cases n with
    | nil =>
      have := h p.1
      rw [Memory.read_nil, Memory.read_cons, if_pos rfl] at this
      exact absurd this hp
    | cons q n =>
      obtain ⟨qb, -, hq, hn'⟩ := (Memory.wf_cons _ _).1 hn
      have hfirst : p.1 = q.1 := by
        rcases Nat.lt_trichotomy p.1 q.1 with hlt | heq | hgt
        · have := h p.1
          rw [Memory.read_cons, if_pos rfl, Memory.read_cons, if_neg (by omega),
            Memory.read_below fun r hr => Nat.lt_trans hlt (qb r hr)] at this
          exact absurd this hp
        · exact heq
        · have := h q.1
          rw [Memory.read_cons, if_neg (by omega), Memory.read_cons, if_pos rfl,
            Memory.read_below fun r hr => Nat.lt_trans hgt (pb r hr)] at this
          exact absurd this.symm hq
      have hcell : p.2 = q.2 := by
        have := h p.1
        rwa [Memory.read_cons, if_pos rfl, Memory.read_cons, if_pos hfirst] at this
      have hrest : m = n := by
        refine ih hm' hn' fun a => ?_
        by_cases ha : a = p.1
        · rw [Memory.read_below (m := m) fun r hr => ha ▸ pb r hr,
            Memory.read_below (m := n) fun r hr => by rw [ha, hfirst]; exact qb r hr]
        · have := h a
          rwa [Memory.read_cons, if_neg ha, Memory.read_cons, if_neg (by rwa [← hfirst])] at this
      rw [hrest, Prod.ext hfirst hcell]

/-- Every entry of a memory made from cells lies at or above its first address. -/
theorem Memory.mem_ofCells {a : Nat} {cells : List Cell} {q : Nat × Cell} (h : q ∈ Memory.ofCells a cells) :
    a ≤ q.1 ∧ q.1 < a + cells.length := by
  induction cells generalizing a with
  | nil => simp [Memory.ofCells] at h
  | cons v rest ih =>
    have step : q ∈ Memory.ofCells (a + 1) rest → a ≤ q.1 ∧ q.1 < a + (v :: rest).length := fun h => by
      have := ih h
      simp only [List.length_cons]
      omega
    unfold Memory.ofCells at h
    split_ifs at h with hv
    · exact step h
    · rcases List.mem_cons.1 h with rfl | h
      · exact ⟨Nat.le_refl a, by simp⟩
      · exact step h

theorem Memory.wf_ofCells {a : Nat} {cells : List Cell} (h : a + cells.length ≤ 32768) :
    (Memory.ofCells a cells).wf := by
  induction cells generalizing a with
  | nil => exact Memory.wf_nil
  | cons v rest ih =>
    have hlen : a + 1 + rest.length ≤ 32768 := by simp only [List.length_cons] at h; omega
    unfold Memory.ofCells
    split_ifs with hv
    · exact ih hlen
    · refine (Memory.wf_cons _ _).2 ⟨fun q hq => ?_, show a < _ by omega, hv, ih hlen⟩
      have := Memory.mem_ofCells hq
      show a < _
      omega

/-- What a memory made from cells reads: the cells, and 0 elsewhere. -/
theorem Memory.read_ofCells (a : Nat) (cells : List Cell) (b : Nat) :
    (Memory.ofCells a cells).read b = if a ≤ b then cells.getD (b - a) unlistedCell else unlistedCell := by
  induction cells generalizing a with
  | nil => simp [Memory.ofCells, Memory.read]
  | cons v rest ih =>
    have next : b ≠ a → (if a + 1 ≤ b then rest.getD (b - (a + 1)) unlistedCell else unlistedCell) =
        if a ≤ b then (v :: rest).getD (b - a) unlistedCell else unlistedCell := fun hne => by
      by_cases hb : a + 1 ≤ b
      · rw [if_pos hb, if_pos (by omega), show b - a = (b - (a + 1)) + 1 by omega, List.getD_cons_succ]
      · rw [if_neg hb, if_neg (by omega)]
    unfold Memory.ofCells
    split
    · rename_i hv
      rw [ih]
      by_cases hne : b = a
      · subst hne; simp [hv]
      · exact next hne
    · rw [Memory.read_cons, ih]
      by_cases hne : b = a
      · subst hne; simp
      · rw [if_neg hne]; exact next hne

theorem Memory.wf_writeCells {m : Memory} (hm : m.wf) (a : Nat) (cells : List Cell) : (m.writeCells a cells).wf := by
  induction cells generalizing m a with
  | nil => exact hm
  | cons v rest ih =>
    unfold Memory.writeCells
    split_ifs with ha
    · exact ih (Memory.wf_write hm ha v) (a + 1)
    · exact hm

/-- What memory reads after consecutive cells have been written. -/
theorem Memory.read_writeCells {m : Memory} (hm : m.wf) (a : Nat) (cells : List Cell) (b : Nat)
    (h : a + cells.length ≤ 32768) :
    (m.writeCells a cells).read b = if a ≤ b then (cells[b - a]?).getD (m.read b) else m.read b := by
  induction cells generalizing m a with
  | nil => simp [Memory.writeCells]
  | cons v rest ih =>
    simp only [List.length_cons] at h
    rw [Memory.writeCells, if_pos (show a < 32768 by omega),
      ih (Memory.wf_write hm (by omega) v) (a + 1) (by omega), Memory.read_write hm.1]
    by_cases hb : b = a
    · subst hb; simp
    · by_cases hle : a + 1 ≤ b
      · simp only [if_neg hb, if_pos hle, if_pos (show a ≤ b by omega)]
        rw [show b - a = (b - (a + 1)) + 1 by omega, List.getElem?_cons_succ]
      · simp only [if_neg hb, if_neg hle, if_neg (show ¬ a ≤ b by omega)]

/-- A state's cell after a write, when its memory is canonical. -/
theorem State.setCell_cellAt {s : State} (hm : s.mem.wf) (a b : Nat) (v : Cell) :
    (s.setCell a v).cellAt b = if b = a then v else s.cellAt b := Memory.read_write hm.1 a b v

end Sys2Proof.Machine
end

