-- ==== Sys2Proof/Laws/State.lean ====
section
/-! SUPPORT. What each named update of the state leaves in each field, so that no later proof unfolds an update. -/

namespace Sys2Proof.Machine

variable (s : State)

@[simp] theorem State.setReg_regs (k : RegIndex) (v : Word) : (s.setReg k v).regs = s.regs.set k v := rfl
@[simp] theorem State.setReg_pc (k : RegIndex) (v : Word) : (s.setReg k v).pc = s.pc := rfl
@[simp] theorem State.setReg_mem (k : RegIndex) (v : Word) : (s.setReg k v).mem = s.mem := rfl
@[simp] theorem State.setReg_stack (k : RegIndex) (v : Word) : (s.setReg k v).stack = s.stack := rfl
@[simp] theorem State.setReg_status (k : RegIndex) (v : Word) : (s.setReg k v).status = s.status := rfl
@[simp] theorem State.setReg_request (k : RegIndex) (v : Word) : (s.setReg k v).request = s.request := rfl
@[simp] theorem State.setReg_supply (k : RegIndex) (v : Word) : (s.setReg k v).supply = s.supply := rfl
@[simp] theorem State.setReg_output (k : RegIndex) (v : Word) : (s.setReg k v).output = s.output := rfl
@[simp] theorem State.setReg_replies (k : RegIndex) (v : Word) : (s.setReg k v).replies = s.replies := rfl
@[simp] theorem State.setReg_exitRequested (k : RegIndex) (v : Word) : (s.setReg k v).exitRequested = s.exitRequested := rfl
@[simp] theorem State.setReg_started (k : RegIndex) (v : Word) : (s.setReg k v).started = s.started := rfl
@[simp] theorem State.setReg_stackCapacity (k : RegIndex) (v : Word) : (s.setReg k v).stackCapacity = s.stackCapacity := rfl

@[simp] theorem State.setCell_regs (a : Nat) (v : Cell) : (s.setCell a v).regs = s.regs := rfl
@[simp] theorem State.setCell_pc (a : Nat) (v : Cell) : (s.setCell a v).pc = s.pc := rfl
@[simp] theorem State.setCell_mem (a : Nat) (v : Cell) : (s.setCell a v).mem = s.mem.write a v := rfl
@[simp] theorem State.setCell_stack (a : Nat) (v : Cell) : (s.setCell a v).stack = s.stack := rfl
@[simp] theorem State.setCell_status (a : Nat) (v : Cell) : (s.setCell a v).status = s.status := rfl
@[simp] theorem State.setCell_request (a : Nat) (v : Cell) : (s.setCell a v).request = s.request := rfl
@[simp] theorem State.setCell_supply (a : Nat) (v : Cell) : (s.setCell a v).supply = s.supply := rfl
@[simp] theorem State.setCell_output (a : Nat) (v : Cell) : (s.setCell a v).output = s.output := rfl
@[simp] theorem State.setCell_replies (a : Nat) (v : Cell) : (s.setCell a v).replies = s.replies := rfl
@[simp] theorem State.setCell_exitRequested (a : Nat) (v : Cell) : (s.setCell a v).exitRequested = s.exitRequested := rfl
@[simp] theorem State.setCell_started (a : Nat) (v : Cell) : (s.setCell a v).started = s.started := rfl
@[simp] theorem State.setCell_stackCapacity (a : Nat) (v : Cell) : (s.setCell a v).stackCapacity = s.stackCapacity := rfl

@[simp] theorem State.raise_regs (e : FaultKind) : (s.raise e).regs = s.regs := rfl
@[simp] theorem State.raise_pc (e : FaultKind) : (s.raise e).pc = s.pc := rfl
@[simp] theorem State.raise_mem (e : FaultKind) : (s.raise e).mem = s.mem := rfl
@[simp] theorem State.raise_stack (e : FaultKind) : (s.raise e).stack = s.stack := rfl
@[simp] theorem State.raise_status (e : FaultKind) : (s.raise e).status = .faulted ⟨e, s.pc⟩ := rfl
@[simp] theorem State.raise_request (e : FaultKind) : (s.raise e).request = s.request := rfl
@[simp] theorem State.raise_supply (e : FaultKind) : (s.raise e).supply = s.supply := rfl
@[simp] theorem State.raise_output (e : FaultKind) : (s.raise e).output = s.output := rfl
@[simp] theorem State.raise_replies (e : FaultKind) : (s.raise e).replies = s.replies := rfl
@[simp] theorem State.raise_exitRequested (e : FaultKind) : (s.raise e).exitRequested = s.exitRequested := rfl
@[simp] theorem State.raise_started (e : FaultKind) : (s.raise e).started = s.started := rfl
@[simp] theorem State.raise_stackCapacity (e : FaultKind) : (s.raise e).stackCapacity = s.stackCapacity := rfl

@[simp] theorem State.halt_regs : (s.halt).regs = s.regs := rfl
@[simp] theorem State.halt_pc : (s.halt).pc = 32768#16 := rfl
@[simp] theorem State.halt_mem : (s.halt).mem = s.mem := rfl
@[simp] theorem State.halt_stack : (s.halt).stack = s.stack := rfl
@[simp] theorem State.halt_status : (s.halt).status = .halted := rfl
@[simp] theorem State.halt_request : (s.halt).request = s.request := rfl
@[simp] theorem State.halt_supply : (s.halt).supply = s.supply := rfl
@[simp] theorem State.halt_output : (s.halt).output = s.output := rfl
@[simp] theorem State.halt_replies : (s.halt).replies = s.replies := rfl
@[simp] theorem State.halt_exitRequested : (s.halt).exitRequested = s.exitRequested := rfl
@[simp] theorem State.halt_started : (s.halt).started = s.started := rfl
@[simp] theorem State.halt_stackCapacity : (s.halt).stackCapacity = s.stackCapacity := rfl

@[simp] theorem State.advance_regs (n : Nat) : (s.advance n).regs = s.regs := rfl
@[simp] theorem State.advance_pc (n : Nat) : (s.advance n).pc = s.pc + BitVec.ofNat 16 n := rfl
@[simp] theorem State.advance_mem (n : Nat) : (s.advance n).mem = s.mem := rfl
@[simp] theorem State.advance_stack (n : Nat) : (s.advance n).stack = s.stack := rfl
@[simp] theorem State.advance_status (n : Nat) : (s.advance n).status = s.status := rfl
@[simp] theorem State.advance_request (n : Nat) : (s.advance n).request = s.request := rfl
@[simp] theorem State.advance_supply (n : Nat) : (s.advance n).supply = s.supply := rfl
@[simp] theorem State.advance_output (n : Nat) : (s.advance n).output = s.output := rfl
@[simp] theorem State.advance_replies (n : Nat) : (s.advance n).replies = s.replies := rfl
@[simp] theorem State.advance_exitRequested (n : Nat) : (s.advance n).exitRequested = s.exitRequested := rfl
@[simp] theorem State.advance_started (n : Nat) : (s.advance n).started = s.started := rfl
@[simp] theorem State.advance_stackCapacity (n : Nat) : (s.advance n).stackCapacity = s.stackCapacity := rfl

@[simp] theorem State.jump_regs (t : Word) : (s.jump t).regs = s.regs := rfl
@[simp] theorem State.jump_pc (t : Word) : (s.jump t).pc = Word.toCell t := rfl
@[simp] theorem State.jump_mem (t : Word) : (s.jump t).mem = s.mem := rfl
@[simp] theorem State.jump_stack (t : Word) : (s.jump t).stack = s.stack := rfl
@[simp] theorem State.jump_status (t : Word) : (s.jump t).status = s.status := rfl
@[simp] theorem State.jump_request (t : Word) : (s.jump t).request = s.request := rfl
@[simp] theorem State.jump_supply (t : Word) : (s.jump t).supply = s.supply := rfl
@[simp] theorem State.jump_output (t : Word) : (s.jump t).output = s.output := rfl
@[simp] theorem State.jump_replies (t : Word) : (s.jump t).replies = s.replies := rfl
@[simp] theorem State.jump_exitRequested (t : Word) : (s.jump t).exitRequested = s.exitRequested := rfl
@[simp] theorem State.jump_started (t : Word) : (s.jump t).started = s.started := rfl
@[simp] theorem State.jump_stackCapacity (t : Word) : (s.jump t).stackCapacity = s.stackCapacity := rfl

@[simp] theorem State.emit_regs (v : Word) : (s.emit v).regs = s.regs := rfl
@[simp] theorem State.emit_pc (v : Word) : (s.emit v).pc = s.pc := rfl
@[simp] theorem State.emit_mem (v : Word) : (s.emit v).mem = s.mem := rfl
@[simp] theorem State.emit_stack (v : Word) : (s.emit v).stack = s.stack := rfl
@[simp] theorem State.emit_status (v : Word) : (s.emit v).status = s.status := rfl
@[simp] theorem State.emit_request (v : Word) : (s.emit v).request = s.request := rfl
@[simp] theorem State.emit_supply (v : Word) : (s.emit v).supply = s.supply := rfl
@[simp] theorem State.emit_output (v : Word) : (s.emit v).output = s.output ++ [v] := rfl
@[simp] theorem State.emit_replies (v : Word) : (s.emit v).replies = s.replies := rfl
@[simp] theorem State.emit_exitRequested (v : Word) : (s.emit v).exitRequested = s.exitRequested := rfl
@[simp] theorem State.emit_started (v : Word) : (s.emit v).started = s.started := rfl
@[simp] theorem State.emit_stackCapacity (v : Word) : (s.emit v).stackCapacity = s.stackCapacity := rfl

@[simp] theorem State.markStarted_regs : (s.markStarted).regs = s.regs := rfl
@[simp] theorem State.markStarted_pc : (s.markStarted).pc = s.pc := rfl
@[simp] theorem State.markStarted_mem : (s.markStarted).mem = s.mem := rfl
@[simp] theorem State.markStarted_stack : (s.markStarted).stack = s.stack := rfl
@[simp] theorem State.markStarted_status : (s.markStarted).status = s.status := rfl
@[simp] theorem State.markStarted_request : (s.markStarted).request = s.request := rfl
@[simp] theorem State.markStarted_supply : (s.markStarted).supply = s.supply := rfl
@[simp] theorem State.markStarted_output : (s.markStarted).output = s.output := rfl
@[simp] theorem State.markStarted_replies : (s.markStarted).replies = s.replies := rfl
@[simp] theorem State.markStarted_exitRequested : (s.markStarted).exitRequested = s.exitRequested := rfl
@[simp] theorem State.markStarted_started : (s.markStarted).started = true := rfl
@[simp] theorem State.markStarted_stackCapacity : (s.markStarted).stackCapacity = s.stackCapacity := rfl

@[simp] theorem State.put_pc (d : Dest) (v : Word) : (s.put d v).pc = s.pc := by cases d <;> rfl
@[simp] theorem State.put_stack (d : Dest) (v : Word) : (s.put d v).stack = s.stack := by cases d <;> rfl
@[simp] theorem State.put_status (d : Dest) (v : Word) : (s.put d v).status = s.status := by cases d <;> rfl
@[simp] theorem State.put_request (d : Dest) (v : Word) : (s.put d v).request = s.request := by cases d <;> rfl
@[simp] theorem State.put_supply (d : Dest) (v : Word) : (s.put d v).supply = s.supply := by cases d <;> rfl
@[simp] theorem State.put_output (d : Dest) (v : Word) : (s.put d v).output = s.output := by cases d <;> rfl
@[simp] theorem State.put_replies (d : Dest) (v : Word) : (s.put d v).replies = s.replies := by cases d <;> rfl
@[simp] theorem State.put_exitRequested (d : Dest) (v : Word) : (s.put d v).exitRequested = s.exitRequested := by cases d <;> rfl
@[simp] theorem State.put_started (d : Dest) (v : Word) : (s.put d v).started = s.started := by cases d <;> rfl
@[simp] theorem State.put_stackCapacity (d : Dest) (v : Word) : (s.put d v).stackCapacity = s.stackCapacity := by cases d <;> rfl
@[simp] theorem State.put_reg_regs (k : RegIndex) (v : Word) : (s.put (.reg k) v).regs = s.regs.set k v := rfl
@[simp] theorem State.put_cell_regs (a v : Word) : (s.put (.cell a) v).regs = s.regs := rfl
@[simp] theorem State.put_reg_mem (k : RegIndex) (v : Word) : (s.put (.reg k) v).mem = s.mem := rfl
@[simp] theorem State.put_cell_mem (a v : Word) : (s.put (.cell a) v).mem = s.mem.write a.toNat (Word.toCell v) := rfl

/-- Register reads see register writes and nothing else. -/
@[simp] theorem State.setReg_reg (j k : RegIndex) (v : Word) :
    (s.setReg k v).reg j = if j = k then v else s.reg j := by
  unfold State.reg State.setReg
  by_cases h : j = k
  · subst h; simp
  · have h' : k.val ≠ j.val := fun e => h (Fin.ext e.symm)
    simpa [h] using Vector.getElem_set_ne k.isLt j.isLt h'

end Sys2Proof.Machine
end

