-- ==== Sys2Proof/Laws/Ops.lean ====
section
/-! SUPPORT. One lemma for each shared operation of the machine: everything it can do. -/

namespace Sys2Proof.Machine

@[simp] theorem State.orRaise_ok {α : Type} (s : State) (v : α) (go : α → Result) : s.orRaise (.ok v) go = go v := rfl

@[simp] theorem State.orRaise_error {α : Type} (s : State) (e : FaultKind) (go : α → Result) :
    s.orRaise (.error e) go = .next (s.raise e) := rfl

/-- Going on or raising ends in a next state in two ways. -/
theorem State.orRaise_next {α : Type} {s t : State} {x : Except FaultKind α} {go : α → Result}
    (h : s.orRaise x go = .next t) : (∃ e, x = .error e ∧ t = s.raise e) ∨ ∃ v, x = .ok v ∧ go v = .next t := by
  cases x with
  | error e => exact .inl ⟨e, rfl, by cases h; rfl⟩
  | ok v => exact .inr ⟨v, rfl, h⟩

/-- R90: a value operand fails only when it is invalid. -/
theorem State.val_error {s : State} {o : Operand} {e : FaultKind} (h : s.val o = .error e) :
    ∃ raw, o = .invalid raw ∧ e = .invalidRegister raw := by
  cases o with
  | literal v => cases h
  | register k => cases h
  | invalid raw => cases h; exact ⟨raw, rfl, rfl⟩

/-- R91: a destination operand fails only when it is invalid. -/
theorem dst_error {o : Operand} {e : FaultKind} (h : dst o = .error e) :
    ∃ raw, o = .invalid raw ∧ e = .invalidRegister raw := by
  cases o with
  | literal v => cases h
  | register k => cases h
  | invalid raw => cases h; exact ⟨raw, rfl, rfl⟩

/-- R91: what a destination operand is when it does not fail. -/
theorem dst_ok {o : Operand} {d : Dest} (h : dst o = .ok d) :
    (∃ a, o = .literal a ∧ d = .cell a) ∨ ∃ k, o = .register k ∧ d = .reg k := by
  cases o with
  | literal a => cases h; exact .inl ⟨a, rfl, rfl⟩
  | register k => cases h; exact .inr ⟨k, rfl, rfl⟩
  | invalid raw => cases h

/-- R33: a push succeeds with the new top, or overflows a full finite stack. -/
theorem State.push_cases (s : State) (v : Word) :
    ((∀ n, s.stackCapacity = some n → s.stack.length < n) ∧ s.push v = .ok { s with stack := s.stack ++ [v] }) ∨
    ((∃ n, s.stackCapacity = some n ∧ n ≤ s.stack.length) ∧ s.push v = .error .stackOverflow) := by
  unfold State.push State.stackFull
  cases hc : s.stackCapacity with
  | none => exact .inl ⟨by simp, rfl⟩
  | some n =>
    by_cases h : n ≤ s.stack.length
    · exact .inr ⟨⟨n, rfl, h⟩, by simp [h]⟩
    · exact .inl ⟨fun m hm => by cases hm; omega, by simp [h]⟩

/-- R34: a pop is the empty result on the empty stack, and otherwise takes the top entry. -/
theorem State.pop_cases (s : State) :
    (s.stack = [] ∧ s.pop = none) ∨
    ∃ below v, s.stack = below ++ [v] ∧ s.pop = some (v, { s with stack := below }) := by
  rcases List.eq_nil_or_concat s.stack with h | ⟨below, v, h⟩
  · exact .inl ⟨h, by simp [State.pop, h]⟩
  · have h' : s.stack = below ++ [v] := by simpa using h
    exact .inr ⟨below, v, h', by simp [State.pop, h']⟩

/-- R91: what a write to a destination leaves of the registers. -/
theorem State.put_reg (s : State) (d : Dest) (v : Word) (k : RegIndex) :
    (s.put d v).reg k = if d = .reg k then v else s.reg k := by
  cases d with
  | cell a => simp [State.put, State.reg]
  | reg j => simp [State.put, eq_comm]

/-- R91: a write to a destination leaves every cell alone but the one it names. -/
theorem State.put_cellAt_ne (s : State) (d : Dest) (v : Word) (b : Nat) (h : ∀ a, d = .cell a → b ≠ a.toNat) :
    (s.put d v).cellAt b = s.cellAt b := by
  cases d with
  | cell a => exact Memory.read_write_ne s.mem _ (h a rfl)
  | reg k => rfl

/-- R53: the cell a destination names holds the Word written. -/
theorem State.put_cellAt_self {s : State} (hm : s.mem.wf) (a v : Word) :
    (s.put (.cell a) v).cellAt a.toNat = Word.toCell v := Memory.read_write_self hm.1 _ _

theorem State.put_mem_wf {s : State} (hm : s.mem.wf) (d : Dest) (v : Word) : (s.put d v).mem.wf := by
  cases d with
  | cell a => exact Memory.wf_write hm (by have := a.isLt; omega) _
  | reg k => exact hm

theorem Word.toCell_toNat (v : Word) : (Word.toCell v).toNat = v.toNat := by
  have := v.isLt
  simp only [Word.toCell, BitVec.toNat_ofNat]
  omega

/-- R55: a Word is always an address in bounds, so a store to it never faults. -/
theorem State.memWrite_word (s : State) (a v : Word) :
    s.memWrite a.toNat v = .ok (s.setCell a.toNat (Word.toCell v)) := if_pos a.isLt

theorem State.memRead_word (s : State) (a : Word) : s.memRead a.toNat = .ok (s.cellAt a.toNat) := if_pos a.isLt

/-- R185: a load gives the cell's Word, or WordRange. -/
theorem loadWord_eq (s : State) (ea : Word) :
    loadWord s ea = if 32767 < (s.cellAt ea.toNat).toNat then .error (.wordRange (s.cellAt ea.toNat))
      else .ok (BitVec.ofNat 15 (s.cellAt ea.toNat).toNat) := by
  unfold loadWord Cell.toWord?
  rw [State.memRead_word]
  by_cases h : (s.cellAt ea.toNat).toNat < 32768
  · simp [h, show ¬ 32767 < (s.cellAt ea.toNat).toNat by omega]
  · simp [h, show 32767 < (s.cellAt ea.toNat).toNat by omega]

/-- The shape `a b` of one value and a destination: its faults in order, or its one write and the advance. -/
theorem unaryOp_next {f : Word → Except FaultKind Word} {a b : Operand} {s t : State} (h : unaryOp f a b s = .next t) :
    (∃ raw, (a = .invalid raw ∨ b = .invalid raw) ∧ t = s.raise (.invalidRegister raw)) ∨
    (∃ u e, s.val b = .ok u ∧ f u = .error e ∧ t = s.raise e) ∨
    ∃ d u r, dst a = .ok d ∧ s.val b = .ok u ∧ f u = .ok r ∧ t = (s.put d r).advance 3 := by
  rcases State.orRaise_next h with ⟨e, ha, rfl⟩ | ⟨d, ha, h⟩
  · obtain ⟨raw, rfl, rfl⟩ := dst_error ha
    exact .inl ⟨raw, .inl rfl, rfl⟩
  rcases State.orRaise_next h with ⟨e, hb, rfl⟩ | ⟨u, hb, h⟩
  · obtain ⟨raw, rfl, rfl⟩ := State.val_error hb
    exact .inl ⟨raw, .inr rfl, rfl⟩
  rcases State.orRaise_next h with ⟨e, hf, rfl⟩ | ⟨r, hf, h⟩
  · exact .inr (.inl ⟨u, e, hb, hf, rfl⟩)
  · cases h
    exact .inr (.inr ⟨d, u, r, ha, hb, hf, rfl⟩)

/-- The shape `a b c` of two values and a destination. -/
theorem binaryOp_next {f : Word → Word → Except FaultKind Word} {a b c : Operand} {s t : State}
    (h : binaryOp f a b c s = .next t) :
    (∃ raw, (a = .invalid raw ∨ b = .invalid raw ∨ c = .invalid raw) ∧ t = s.raise (.invalidRegister raw)) ∨
    (∃ u v e, s.val b = .ok u ∧ s.val c = .ok v ∧ f u v = .error e ∧ t = s.raise e) ∨
    ∃ d u v r, dst a = .ok d ∧ s.val b = .ok u ∧ s.val c = .ok v ∧ f u v = .ok r ∧ t = (s.put d r).advance 4 := by
  rcases State.orRaise_next h with ⟨e, ha, rfl⟩ | ⟨d, ha, h⟩
  · obtain ⟨raw, rfl, rfl⟩ := dst_error ha
    exact .inl ⟨raw, .inl rfl, rfl⟩
  rcases State.orRaise_next h with ⟨e, hb, rfl⟩ | ⟨u, hb, h⟩
  · obtain ⟨raw, rfl, rfl⟩ := State.val_error hb
    exact .inl ⟨raw, .inr (.inl rfl), rfl⟩
  rcases State.orRaise_next h with ⟨e, hc, rfl⟩ | ⟨v, hc, h⟩
  · obtain ⟨raw, rfl, rfl⟩ := State.val_error hc
    exact .inl ⟨raw, .inr (.inr rfl), rfl⟩
  rcases State.orRaise_next h with ⟨e, hf, rfl⟩ | ⟨r, hf, h⟩
  · exact .inr (.inl ⟨u, v, e, hb, hc, hf, rfl⟩)
  · cases h
    exact .inr (.inr ⟨d, u, v, r, ha, hb, hc, hf, rfl⟩)

end Sys2Proof.Machine
end

