-- ==== Sys2Proof/Laws/Input.lean ====
section
/-! SUPPORT. What a debug command can change, and the ways serving an IN ends. -/

namespace Sys2Proof.Machine

/-- R230 to R237: a command other than LoadState changes at most one register or one cell. -/
theorem debugCommand_cases {c : DebugCommand} (hc : c.isLoadState = false) (s : State) :
    (debugCommand c s).1 = s ∨ (∃ k v, (debugCommand c s).1 = s.setReg k v) ∨
    ∃ a v, a < 32768 ∧ (debugCommand c s).1 = s.setCell a v := by
  cases c with
  | writeReg k v =>
    simp only [debugCommand, debugWriteReg]
    split
    · split
      · exact .inr (.inl ⟨_, _, rfl⟩)
      · exact .inl rfl
    · exact .inl rfl
  | writeMem a v =>
    simp only [debugCommand, debugWriteMem]
    split
    · split
      · exact .inr (.inr ⟨_, _, ‹_›, rfl⟩)
      · exact .inl rfl
    · exact .inl rfl
  | loadState saved => cases hc
  | _ => exact .inl rfl

/-- What the debug commands of an IN leave as it was. -/
structure DebugKept (s t : State) : Prop where
  pc : t.pc = s.pc
  stack : t.stack = s.stack
  status : t.status = s.status
  request : t.request = s.request
  supply : t.supply = s.supply
  output : t.output = s.output
  exitRequested : t.exitRequested = s.exitRequested
  started : t.started = s.started
  stackCapacity : t.stackCapacity = s.stackCapacity
  memWf : s.mem.wf → t.mem.wf

theorem State.debugged_kept {c : DebugCommand} (hc : c.isLoadState = false) (s : State) :
    DebugKept s (s.debugged c) := by
  rcases debugCommand_cases hc s with h | ⟨k, v, h⟩ | ⟨a, v, ha, h⟩ <;>
    constructor <;> simp only [State.debugged, h] <;> try rfl
  · exact id
  · exact id
  · exact fun hm => Memory.wf_write hm ha v

theorem State.debuggedAll_kept {cmds : List DebugCommand} (hc : ∀ c ∈ cmds, c.isLoadState = false) (s : State) :
    DebugKept s (cmds.foldl State.debugged s) := by
  induction cmds generalizing s with
  | nil => constructor <;> first | rfl | exact id
  | cons c cmds ih =>
    have h1 := State.debugged_kept (hc c (by simp)) s
    have h2 := ih (fun d hd => hc d (by simp [hd])) (s.debugged c)
    constructor <;>
      first
      | exact h2.pc.trans h1.pc
      | exact h2.stack.trans h1.stack
      | exact h2.status.trans h1.status
      | exact h2.request.trans h1.request
      | exact h2.supply.trans h1.supply
      | exact h2.output.trans h1.output
      | exact h2.exitRequested.trans h1.exitRequested
      | exact h2.started.trans h1.started
      | exact h2.stackCapacity.trans h1.stackCapacity
      | exact fun hm => h2.memWf (h1.memWf hm)

/-- A command other than LoadState does not look at the record of the input port. -/
theorem State.debugged_ports {c : DebugCommand} (hc : c.isLoadState = false) (s : State) (answers : List HostAnswer)
    (r : Option Dest) :
    State.debugged { s with supply := answers, request := r } c =
      { s.debugged c with supply := answers, request := r } := by
  cases c with
  | writeReg k v =>
    by_cases hk : k < 8
    · by_cases hv : v < 32768 <;> simp [State.debugged, debugCommand, debugWriteReg, hk, hv, State.setReg]
    · simp [State.debugged, debugCommand, debugWriteReg, hk]
  | writeMem a v =>
    by_cases ha : a < 32768
    · by_cases hv : v < 65536 <;> simp [State.debugged, debugCommand, debugWriteMem, ha, hv, State.setCell]
    · simp [State.debugged, debugCommand, debugWriteMem, ha]
  | loadState saved => cases hc
  | _ => rfl

/-- Serving an IN overwrites the record of the input port and does not look at it. -/
theorem serveInput_ports (d : Dest) (answers : List HostAnswer) (s : State) (sup : List HostAnswer) (r : Option Dest) :
    serveInput d answers { s with supply := sup, request := r } = serveInput d answers s := by
  induction answers generalizing s with
  | nil => rfl
  | cons x rest ih =>
    cases x with
    | byte b => rfl
    | failure => rfl
    | exit => rfl
    | command c =>
      by_cases hc : c.isLoadState = true
      · simp [serveInput, hc]
      · have hc' := Bool.eq_false_iff.2 hc
        simp only [serveInput, hc', Bool.false_eq_true, if_false]
        rw [State.debugged_ports hc', ih]

/-- R197: the commands before the first other answer are carried out, and then the IN goes on. -/
theorem serveInput_commands (d : Dest) {cmds : List DebugCommand} (hc : ∀ c ∈ cmds, c.isLoadState = false)
    (rest : List HostAnswer) (s : State) :
    serveInput d (cmds.map .command ++ rest) s = serveInput d rest (cmds.foldl State.debugged s) := by
  induction cmds generalizing s with
  | nil => rfl
  | cons c cmds ih =>
    show (if c.isLoadState then _ else _) = _
    rw [if_neg (by simp [hc c (by simp)])]
    exact ih (fun d hd => hc d (by simp [hd])) (s.debugged c)

/-- R197: the four ways serving an IN ends in a next state, each after some debug commands: blocked, a byte, a failure, an
exit. -/
theorem serveInput_next {d : Dest} {answers : List HostAnswer} {s t : State} (h : serveInput d answers s = .next t) :
    ∃ (cmds : List DebugCommand) (rest : List HostAnswer), answers = cmds.map .command ++ rest ∧ (∀ c ∈ cmds, c.isLoadState = false) ∧
      ((rest = [] ∧ t = (cmds.foldl State.debugged s).blocked d) ∨
       (∃ b r, rest = .byte b :: r ∧ t = (cmds.foldl State.debugged s).tookByte d r b) ∨
       (∃ r, rest = .failure :: r ∧ t = (cmds.foldl State.debugged s).tookFailure r) ∨
       (∃ r, rest = .exit :: r ∧ t = (cmds.foldl State.debugged s).tookExit r)) := by
  induction answers generalizing s with
  | nil => cases h; exact ⟨[], [], rfl, by simp, .inl ⟨rfl, rfl⟩⟩
  | cons x rest ih =>
    cases x with
    | byte b => cases h; exact ⟨[], _, rfl, by simp, .inr (.inl ⟨b, rest, rfl, rfl⟩)⟩
    | failure => cases h; exact ⟨[], _, rfl, by simp, .inr (.inr (.inl ⟨rest, rfl, rfl⟩))⟩
    | exit => cases h; exact ⟨[], _, rfl, by simp, .inr (.inr (.inr ⟨rest, rfl, rfl⟩))⟩
    | command c =>
      simp only [serveInput] at h
      split at h
      · cases h
      · rename_i hc
        obtain ⟨cmds, r, hr, hl, hcases⟩ := ih h
        exact ⟨c :: cmds, r, by simp [hr], by simpa using ⟨Bool.eq_false_iff.2 hc, hl⟩, hcases⟩

/-- R235: serving an IN that no LoadState answers always ends in a next state. -/
theorem serveInput_completes (d : Dest) {answers : List HostAnswer}
    (h : ∀ saved, HostAnswer.command (.loadState saved) ∉ answers) (s : State) :
    ∃ t, serveInput d answers s = .next t := by
  induction answers generalizing s with
  | nil => exact ⟨_, rfl⟩
  | cons x rest ih =>
    cases x with
    | byte b => exact ⟨_, rfl⟩
    | failure => exact ⟨_, rfl⟩
    | exit => exact ⟨_, rfl⟩
    | command c =>
      have hc : c.isLoadState = false := by
        cases c with
        | loadState saved => exact absurd List.mem_cons_self (h saved)
        | _ => rfl
      simp only [serveInput, hc]
      exact ih (fun saved hs => h saved (List.mem_cons_of_mem _ hs)) _

end Sys2Proof.Machine
end

