-- ==== Sys2Proof/Laws/PerInstr.lean ====
section
/-! SUPPORT. The family RoundTrip of LAWS.json: an instruction is read back from its own cells, one lemma for each
constructor. -/

namespace Sys2Proof.Laws.RoundTrip

/-- R80 to R89: decoding the cells of an encodable instruction gives it back, with the cells after it. -/
def Statement (i : Instr) : Prop := i.encodable = true → ∀ rest, decode (encode i ++ rest) = .instr i rest

/-- The cells of an instruction with no operand decode to it. -/
theorem nullary {i : Instr} {row : TableRow} (hop : i.operands = []) (hrow : instructionTable[i.opcode]? = some row)
    (hi : ∀ a b c, instrOf i.opcode a b c = some i) (har : row.arity = 0) : Statement i := by
  intro _ rest
  have hn : (BitVec.ofNat 16 i.opcode).toNat = i.opcode := i.opcode_toNat
  simp [encode, hop, decode, hn, hrow, hi, har]

/-- The cells of an instruction with one operand decode to it. -/
theorem unary {i : Instr} {row : TableRow} {a : Operand} (hop : i.operands = [a])
    (hrow : instructionTable[i.opcode]? = some row) (hi : ∀ b c, instrOf i.opcode a b c = some i) (har : row.arity = 1) (hw : i.encodable = true → a.canonical = true) : Statement i := by
  intro he rest
  have hn : (BitVec.ofNat 16 i.opcode).toNat = i.opcode := i.opcode_toNat
  simp [encode, hop, decode, hn, hrow, hi, har, operandAt, Operand.ofCell_toCell (hw he)]

/-- The cells of an instruction with two operands decode to it. -/
theorem binary {i : Instr} {row : TableRow} {a b : Operand} (hop : i.operands = [a, b])
    (hrow : instructionTable[i.opcode]? = some row) (hi : ∀ c, instrOf i.opcode a b c = some i) (har : row.arity = 2) (hw : i.encodable = true → a.canonical = true ∧ b.canonical = true) : Statement i := by
  intro he rest
  have hn : (BitVec.ofNat 16 i.opcode).toNat = i.opcode := i.opcode_toNat
  simp [encode, hop, decode, hn, hrow, hi, har, operandAt, Operand.ofCell_toCell (hw he).1,
    Operand.ofCell_toCell (hw he).2]

/-- The cells of an instruction with three operands decode to it. -/
theorem ternary {i : Instr} {row : TableRow} {a b c : Operand} (hop : i.operands = [a, b, c])
    (hrow : instructionTable[i.opcode]? = some row) (hi : instrOf i.opcode a b c = some i) (har : row.arity = 3)
    (hw : i.encodable = true → (a.canonical = true ∧ b.canonical = true) ∧ c.canonical = true) : Statement i := by
  intro he rest
  have hn : (BitVec.ofNat 16 i.opcode).toNat = i.opcode := i.opcode_toNat
  simp [encode, hop, decode, hn, hrow, hi, har, operandAt, Operand.ofCell_toCell (hw he).1.1,
    Operand.ofCell_toCell (hw he).1.2, Operand.ofCell_toCell (hw he).2]

theorem halt : Statement (.halt) :=
  nullary rfl rfl (fun _ _ _ => rfl) rfl

theorem set (a b : Operand) : Statement (.set a b) :=
  binary rfl rfl (fun _ => rfl) rfl (fun h => by simpa [Instr.encodable, Instr.operandsAll] using h)

theorem push (a : Operand) : Statement (.push a) :=
  unary rfl rfl (fun _ _ => rfl) rfl id

theorem pop (a : Operand) : Statement (.pop a) :=
  unary rfl rfl (fun _ _ => rfl) rfl id

theorem eq (a b c : Operand) : Statement (.eq a b c) :=
  ternary rfl rfl rfl rfl (fun h => by simpa [Instr.encodable, Instr.operandsAll] using h)

theorem gt (a b c : Operand) : Statement (.gt a b c) :=
  ternary rfl rfl rfl rfl (fun h => by simpa [Instr.encodable, Instr.operandsAll] using h)

theorem jmp (a : Operand) : Statement (.jmp a) :=
  unary rfl rfl (fun _ _ => rfl) rfl id

theorem jt (a b : Operand) : Statement (.jt a b) :=
  binary rfl rfl (fun _ => rfl) rfl (fun h => by simpa [Instr.encodable, Instr.operandsAll] using h)

theorem jf (a b : Operand) : Statement (.jf a b) :=
  binary rfl rfl (fun _ => rfl) rfl (fun h => by simpa [Instr.encodable, Instr.operandsAll] using h)

theorem add (a b c : Operand) : Statement (.add a b c) :=
  ternary rfl rfl rfl rfl (fun h => by simpa [Instr.encodable, Instr.operandsAll] using h)

theorem mult (a b c : Operand) : Statement (.mult a b c) :=
  ternary rfl rfl rfl rfl (fun h => by simpa [Instr.encodable, Instr.operandsAll] using h)

theorem mod (a b c : Operand) : Statement (.mod a b c) :=
  ternary rfl rfl rfl rfl (fun h => by simpa [Instr.encodable, Instr.operandsAll] using h)

theorem and (a b c : Operand) : Statement (.and a b c) :=
  ternary rfl rfl rfl rfl (fun h => by simpa [Instr.encodable, Instr.operandsAll] using h)

theorem or (a b c : Operand) : Statement (.or a b c) :=
  ternary rfl rfl rfl rfl (fun h => by simpa [Instr.encodable, Instr.operandsAll] using h)

theorem not (a b : Operand) : Statement (.not a b) :=
  binary rfl rfl (fun _ => rfl) rfl (fun h => by simpa [Instr.encodable, Instr.operandsAll] using h)

theorem rmem (a b : Operand) : Statement (.rmem a b) :=
  binary rfl rfl (fun _ => rfl) rfl (fun h => by simpa [Instr.encodable, Instr.operandsAll] using h)

theorem wmem (a b : Operand) : Statement (.wmem a b) :=
  binary rfl rfl (fun _ => rfl) rfl (fun h => by simpa [Instr.encodable, Instr.operandsAll] using h)

theorem call (a : Operand) : Statement (.call a) :=
  unary rfl rfl (fun _ _ => rfl) rfl id

theorem ret : Statement (.ret) :=
  nullary rfl rfl (fun _ _ _ => rfl) rfl

theorem out (a : Operand) : Statement (.out a) :=
  unary rfl rfl (fun _ _ => rfl) rfl id

theorem inp (a : Operand) : Statement (.inp a) :=
  unary rfl rfl (fun _ _ => rfl) rfl id

theorem noop : Statement (.noop) :=
  nullary rfl rfl (fun _ _ _ => rfl) rfl

end Sys2Proof.Laws.RoundTrip
end

