-- ==== Sys2Proof/Laws/Step.lean ====
section
/-! SUPPORT. The fetch window, what a state does next, and the ways a step ends. -/

namespace Sys2Proof.Machine

theorem State.betweenInstructions_iff (s : State) :
    s.betweenInstructions = true ↔ s.status = .running ∧ s.exitRequested = false ∧ s.request = none := by
  simp only [State.betweenInstructions, State.ended, Bool.and_eq_true, Bool.not_eq_true', Bool.or_eq_false_iff,
    decide_eq_false_iff_not, ne_eq, Decidable.not_not, Option.isNone_iff_eq_none]
  tauto

theorem State.ended_eq_false_iff (s : State) : s.ended = false ↔ s.status = .running ∧ s.exitRequested = false := by
  simp only [State.ended, Bool.or_eq_false_iff, decide_eq_false_iff_not, ne_eq, Decidable.not_not]
  tauto

/-- R95: the cells fetched from an address in memory begin with that address's cell. -/
theorem State.cellsFrom_succ (s : State) {a : Nat} (h : a < 32768) (n : Nat) :
    s.cellsFrom a (n + 1) = s.cellAt a :: s.cellsFrom (a + 1) n := if_pos h

/-- The window holds as many cells as are asked for and lie in memory. -/
theorem State.cellsFrom_length (s : State) (a n : Nat) : (s.cellsFrom a n).length = min n (32768 - a) := by
  induction n generalizing a with
  | zero => simp [State.cellsFrom]
  | succ n ih =>
    by_cases h : a < 32768
    · rw [State.cellsFrom_succ s h, List.length_cons, ih]; omega
    · rw [State.cellsFrom, if_neg h]; simp; omega

/-- The cells of the window are those of memory. -/
theorem State.cellsFrom_getElem (s : State) (a n k : Nat) (hk : k < n) (ha : a + k < 32768) :
    (s.cellsFrom a n)[k]? = some (s.cellAt (a + k)) := by
  induction n generalizing a k with
  | zero => omega
  | succ n ih =>
    rw [State.cellsFrom_succ s (by omega)]
    cases k with
    | zero => rfl
    | succ k =>
      rw [List.getElem?_cons_succ, ih (a + 1) k (by omega) (by omega), show a + 1 + k = a + (k + 1) by omega]

/-- The window depends only on the cells it shows. -/
theorem State.cellsFrom_congr {s t : State} {a n : Nat} (h : ∀ k, k < n → s.cellAt (a + k) = t.cellAt (a + k)) :
    s.cellsFrom a n = t.cellsFrom a n := by
  induction n generalizing a with
  | zero => rfl
  | succ n ih =>
    unfold State.cellsFrom
    rw [show s.cellAt a = t.cellAt a from h 0 (by omega),
      ih fun k hk => by have := h (k + 1) (by omega); rwa [show a + 1 + k = a + (k + 1) by omega]]

/-- The instruction cycle of a Running state between instructions, with `pc` in memory (R95). -/
theorem nextAction_fetch {s : State} (h : s.betweenInstructions = true) (hpc : s.pc.toNat < 32768) :
    nextAction s = s.fetch := by
  obtain ⟨h1, h2, h3⟩ := s.betweenInstructions_iff.1 h
  have hne : s.pc ≠ 32768#16 := fun e => by rw [e] at hpc; simp at hpc
  simp [nextAction, s.ended_eq_false_iff.2 ⟨h1, h2⟩, h3, hne, Nat.not_lt.2 (Nat.le_of_lt hpc)]

/-- Everything a state can do next. -/
theorem nextAction_cases (s : State) :
    (s.ended = true ∧ nextAction s = .idle) ∨
    (s.ended = false ∧ ∃ d, s.request = some d ∧ nextAction s = .resume d) ∨
    (s.betweenInstructions = true ∧ s.pc = 32768#16 ∧ nextAction s = .sentinel) ∨
    (s.betweenInstructions = true ∧ 32768 < s.pc.toNat ∧ nextAction s = .refuse .stateWithoutMeaning) ∨
    (s.betweenInstructions = true ∧ s.pc.toNat < 32768 ∧ nextAction s = s.fetch) := by
  by_cases he : s.ended = true
  · exact .inl ⟨he, by simp [nextAction, he]⟩
  · have he' : s.ended = false := Bool.eq_false_iff.2 he
    cases hr : s.request with
    | some d => exact .inr (.inl ⟨he', d, rfl, by simp [nextAction, he', hr]⟩)
    | none =>
      have hb : s.betweenInstructions = true := by simp [State.betweenInstructions, he', hr]
      by_cases h1 : s.pc = 32768#16
      · exact .inr (.inr (.inl ⟨hb, h1, by simp [nextAction, he', hr, h1]⟩))
      · by_cases h2 : 32768 < s.pc.toNat
        · exact .inr (.inr (.inr (.inl ⟨hb, h2, by simp [nextAction, he', hr, h1, h2]⟩)))
        · have h3 : s.pc.toNat < 32768 := by
            have : s.pc.toNat ≠ 32768 := fun e => h1 (BitVec.eq_of_toNat_eq (by simpa using e))
            omega
          exact .inr (.inr (.inr (.inr ⟨hb, h3, nextAction_fetch hb h3⟩)))

/-- What a fetch answers, for a `pc` in memory: the whole instruction lies in memory, or one of two faults. -/
theorem State.fetch_cases {s : State} (hpc : s.pc.toNat < 32768) :
    (∃ i rest, s.fetch = .run i ∧ s.fetchCells = encode i ++ rest ∧ i.encodable = true ∧
      s.pc.toNat + (encode i).length ≤ 32768) ∨
    (21 < (s.cellAt s.pc.toNat).toNat ∧ s.fetch = .fault (.invalidOperation (s.cellAt s.pc.toNat))) ∨
    (s.fetch = .fault .memOutOfBounds ∧
      ∃ row, instructionTable[(s.cellAt s.pc.toNat).toNat]? = some row ∧ 32768 ≤ s.pc.toNat + row.arity) := by
  have hlen : s.fetchCells.length = min 4 (32768 - s.pc.toNat) := s.cellsFrom_length _ _
  have hcons : s.fetchCells = s.cellAt s.pc.toNat :: s.cellsFrom (s.pc.toNat + 1) 3 := s.cellsFrom_succ hpc 3
  cases hd : decode s.fetchCells with
  | instr i rest =>
    obtain ⟨hcells, hcan⟩ := decode_instr hd
    have : (encode i).length ≤ s.fetchCells.length := by rw [hcells]; simp
    exact .inl ⟨i, rest, by simp [State.fetch, hd], hcells, hcan, by omega⟩
  | invalidOperation raw =>
    rw [hcons] at hd
    obtain ⟨rfl, hop⟩ := decode_invalidOperation hd
    exact .inr (.inl ⟨hop, by rw [State.fetch, hcons, hd]⟩)
  | missingOperand =>
    rw [hcons] at hd
    obtain ⟨row, hrow, har⟩ := decode_missingOperand hd
    have h3 : row.arity ≤ 3 := by
      have hall : ∀ r ∈ instructionTable, r.arity ≤ 3 := by decide
      exact hall row (List.mem_of_getElem? hrow)
    rw [s.cellsFrom_length] at har
    exact .inr (.inr ⟨by rw [State.fetch, hcons, hd], row, hrow, by omega⟩)
  | noCells => rw [hcons, decode_cons] at hd; split at hd <;> [split at hd; skip] <;> cases hd

/-- The ways a step ends in a next state. -/
theorem step_next {s t : State} (h : step s = .next t) :
    (s.ended = true ∧ t = s) ∨
    (s.ended = false ∧ ∃ d, s.request = some d ∧ serveInput d s.supply s = .next t) ∨
    (s.betweenInstructions = true ∧ s.pc = 32768#16 ∧ t = s.markStarted.halt) ∨
    (s.betweenInstructions = true ∧ s.pc.toNat < 32768 ∧ ∃ e, s.fetch = .fault e ∧ t = s.markStarted.raise e) ∨
    (s.betweenInstructions = true ∧ ∃ i, s.fetch = .run i ∧ s.pc.toNat + (encode i).length ≤ 32768 ∧
      exec i s.markStarted = .next t) := by
  unfold step at h
  rcases nextAction_cases s with ⟨he, ha⟩ | ⟨he, d, hr, ha⟩ | ⟨hb, hp, ha⟩ | ⟨hb, hp, ha⟩ | ⟨hb, hp, ha⟩ <;>
    rw [ha] at h
  · cases h; exact .inl ⟨he, rfl⟩
  · exact .inr (.inl ⟨he, d, hr, h⟩)
  · cases h; exact .inr (.inr (.inl ⟨hb, hp, rfl⟩))
  · cases h
  · rcases State.fetch_cases hp with ⟨i, rest, hf, -, -, hl⟩ | ⟨-, hf⟩ | ⟨hf, -⟩ <;> rw [hf] at h
    · exact .inr (.inr (.inr (.inr ⟨hb, i, hf, hl, h⟩)))
    · cases h; exact .inr (.inr (.inr (.inl ⟨hb, hp, _, hf, rfl⟩)))
    · cases h; exact .inr (.inr (.inr (.inl ⟨hb, hp, _, hf, rfl⟩)))

/-- R36: a run that has ended answers itself (log entry 2). -/
theorem step_of_ended {s : State} (h : s.ended = true) : step s = .next s := by
  have : nextAction s = .idle := by simp [nextAction, h]
  rw [step, this]

/-- A state whose step answers itself stays as it is in every run. -/
theorem run_of_fixed (M : Host.Core) {s : M.State} (h : M.step s = .next s) (k : Nat) : M.run k s = .next s := by
  induction k with
  | zero => rfl
  | succ k ih => rw [Host.Core.run, h]; exact ih

theorem cellsOfNat_length (n w : Nat) : (cellsOfNat n w).length = n := by
  induction n generalizing w with
  | zero => rfl
  | succ n ih => rw [cellsOfNat, List.length_cons, ih]

/-- The word placed where the next instruction is fetched is the one the next step runs. -/
theorem step_withFetchWord {s : State} {nbits w : Nat} {i : Instr} (hm : s.mem.wf) (hpc : s.pc.toNat + 4 ≤ 32768)
    (hi : decodeTableWord nbits w = some i) :
    step (s.withFetchWord nbits w) = exec i (s.withFetchWord nbits w).markStarted := by
  have hlen : (tableWordCells nbits w).length = 4 := cellsOfNat_length 4 _
  have hcells : (s.withFetchWord nbits w).fetchCells = tableWordCells nbits w := by
    apply List.ext_getElem?
    intro k
    by_cases hk : k < 4
    · rw [State.fetchCells, State.cellsFrom_getElem _ _ _ k hk (by show s.pc.toNat + k < 32768; omega)]
      show some (Memory.read (s.mem.writeCells s.pc.toNat _) (s.pc.toNat + k)) = _
      rw [Memory.read_writeCells hm _ _ _ (by omega), if_pos (by omega), show s.pc.toNat + k - s.pc.toNat = k by omega,
        List.getElem?_eq_getElem (by omega), Option.getD_some]
    · rw [List.getElem?_eq_none (by rw [State.fetchCells, State.cellsFrom_length]; simp; omega),
        List.getElem?_eq_none (by omega)]
  have hb : (s.withFetchWord nbits w).betweenInstructions = true :=
    (State.betweenInstructions_iff _).2 ⟨rfl, rfl, rfl⟩
  have hf : (s.withFetchWord nbits w).fetch = .run i := by
    rw [State.fetch, hcells]
    unfold decodeTableWord at hi
    split at hi
    · cases hi; simp [*]
    all_goals cases hi
  rw [step, nextAction_fetch hb (show s.pc.toNat < 32768 by omega), hf]

end Sys2Proof.Machine
end

