-- ==== Sys2Proof/Tests/Slice0.lean ====
section
/-! SUPPORT. The model's own tests. Expected results come from the spec: its encodings (R86), its worked examples and
spec/95_test_vectors.md, cited at each test. Then one witness for the hypotheses of each statement that has any. -/

open Sys2Proof Sys2Proof.Machine

namespace Sys2Proof.Tests

/-- The launch state of an image of cells. -/
def image (cells : List Cell) : State := { State.reset with mem := Memory.ofCells 0 cells }

/-- A state about to run the cells placed at `pc`. -/
def placed (pc : Nat) (cells : List Cell) : State :=
  { State.reset with pc := BitVec.ofNat 16 pc, mem := Memory.ofCells pc cells }

/-- What `f` shows of the next state. -/
def after {α : Type} (f : State → α) (s : State) : Option α := (nextOf (step s)).map f

/-- Register `k` and the `pc`, as numbers. -/
def regAndPc (k : RegIndex) (t : State) : Nat × Nat := ((t.reg k).toNat, t.pc.toNat)

/-- The stack and the `pc`, as numbers. -/
def stackAndPc (t : State) : List Nat × Nat := (t.stack.map BitVec.toNat, t.pc.toNat)

/-! ## Well-formedness: an ill-formed operand in each position is refused -/

theorem test_wf_refuses_operand_a : (Instr.add (.invalid 32776) (.literal 0) (.literal 0)).wf = false := by decide
theorem test_wf_refuses_operand_b : (Instr.add (.register 0) (.invalid 65535) (.literal 0)).wf = false := by decide
theorem test_wf_refuses_operand_c : (Instr.add (.register 0) (.literal 0) (.invalid 40000)).wf = false := by decide
theorem test_wf_accepts_legal_operands : (Instr.add (.register 7) (.literal 32767) (.register 0)).wf = true := by decide
theorem test_encodable_refuses_a_literal_as_invalid : (Instr.push (.invalid 32767)).encodable = false := by decide
theorem test_encodable_refuses_a_register_as_invalid : (Instr.push (.invalid 32775)).encodable = false := by decide
theorem test_encodable_accepts_an_invalid_cell : (Instr.push (.invalid 32776)).encodable = true := by decide

/-! ## Decoding: words written out from R80, R81 and R86 -/

theorem test_decode_halt : decode [0b0000000000000000#16] = .instr .halt [] := by decide
theorem test_decode_set : decode [0b0000000000000001#16, 0b1000000000000000#16, 0b0000000000000100#16] =
    .instr (.set (.register 0) (.literal 4)) [] := by decide
theorem test_decode_push : decode [0b0000000000000010#16, 0b0000000001111011#16] =
    .instr (.push (.literal 123)) [] := by decide
theorem test_decode_pop : decode [0b0000000000000011#16, 0b1000000000000010#16] =
    .instr (.pop (.register 2)) [] := by decide
theorem test_decode_eq : decode [0b0000000000000100#16, 0b1000000000000101#16, 0b1000000000000010#16,
    0b0000000000000011#16] = .instr (.eq (.register 5) (.register 2) (.literal 3)) [] := by decide
theorem test_decode_gt : decode [0b0000000000000101#16, 0b1000000000000100#16, 0b1000000000000000#16,
    0b1000000000000001#16] = .instr (.gt (.register 4) (.register 0) (.register 1)) [] := by decide
theorem test_decode_jmp : decode [0b0000000000000110#16, 0b0111111111111111#16] =
    .instr (.jmp (.literal 32767)) [] := by decide
theorem test_decode_jt : decode [0b0000000000000111#16, 0b1000000000000000#16, 0b0000000000000111#16] =
    .instr (.jt (.register 0) (.literal 7)) [] := by decide
theorem test_decode_jf : decode [0b0000000000001000#16, 0b1000000000000001#16, 0b0000000000011001#16] =
    .instr (.jf (.register 1) (.literal 25)) [] := by decide
theorem test_decode_add : decode [0b0000000000001001#16, 0b1000000000000010#16, 0b1000000000000001#16,
    0b0000000000000101#16] = .instr (.add (.register 2) (.register 1) (.literal 5)) [] := by decide
theorem test_decode_mult : decode [0b0000000000001010#16, 0b1000000000000001#16, 0b1000000000000000#16,
    0b0000000000000010#16] = .instr (.mult (.register 1) (.register 0) (.literal 2)) [] := by decide
theorem test_decode_mod : decode [0b0000000000001011#16, 0b1000000000000011#16, 0b1000000000000001#16,
    0b0000001111101000#16] = .instr (.mod (.register 3) (.register 1) (.literal 1000)) [] := by decide
theorem test_decode_and : decode [0b0000000000001100#16, 0b1000000000000110#16, 0b1000000000000000#16,
    0b1000000000000011#16] = .instr (.and (.register 6) (.register 0) (.register 3)) [] := by decide
theorem test_decode_or : decode [0b0000000000001101#16, 0b1000000000000111#16, 0b1000000000000010#16,
    0b1000000000000100#16] = .instr (.or (.register 7) (.register 2) (.register 4)) [] := by decide
theorem test_decode_not : decode [0b0000000000001110#16, 0b1000000000000000#16, 0b0000000000000000#16] =
    .instr (.not (.register 0) (.literal 0)) [] := by decide
theorem test_decode_rmem : decode [0b0000000000001111#16, 0b1000000000000001#16, 0b1000000000000000#16] =
    .instr (.rmem (.register 1) (.register 0)) [] := by decide
theorem test_decode_wmem : decode [0b0000000000010000#16, 0b0000000000000100#16, 0b0000000001000010#16] =
    .instr (.wmem (.literal 4) (.literal 66)) [] := by decide
theorem test_decode_call : decode [0b0000000000010001#16, 0b0000000011001000#16] =
    .instr (.call (.literal 200)) [] := by decide
theorem test_decode_ret : decode [0b0000000000010010#16] = .instr .ret [] := by decide
theorem test_decode_out : decode [0b0000000000010011#16, 0b0000000001000001#16] =
    .instr (.out (.literal 65)) [] := by decide
theorem test_decode_inp : decode [0b0000000000010100#16, 0b1000000000000000#16] =
    .instr (.inp (.register 0)) [] := by decide
theorem test_decode_noop : decode [0b0000000000010101#16] = .instr .noop [] := by decide

/-- Vectors 2.10: all 16 bits of the opcode cell are compared. -/
theorem test_decode_rejects : [22#16, 256#16, 32768#16, 65535#16].map (fun op => decode [op, 0, 0, 0]) =
    [.invalidOperation 22, .invalidOperation 256, .invalidOperation 32768, .invalidOperation 65535] := by decide

/-- R89: the classes of operand cells at their boundaries (vectors 2.1). -/
theorem test_operand_classes : [0#16, 32767#16, 32768#16, 32775#16, 32776#16, 65535#16].map Operand.ofCell =
    [.literal 0, .literal 32767, .register 0, .register 7, .invalid 32776, .invalid 65535] := by decide

/-- R80: an operand cell is missing. -/
theorem test_decode_missing_operand : decode [9#16, 32768#16, 1#16] = .missingOperand ∧ decode [] = .noCells := by decide

/-! ## The instructions, one step each -/

/-- R120. -/
theorem test_halt : after (fun t => (t.status, t.pc)) (placed 4 [0]) = some (.halted, 32768) := by decide
/-- R121: NOOP at the last cell reaches the sentinel. -/
theorem test_noop_top : after (fun t => (t.status, t.pc)) (placed 32767 [21]) = some (.running, 32768) := by decide
/-- R130. -/
theorem test_set : after (regAndPc 0) ((image [1, 32768, 32769]).setReg 1 7) = some (7, 3) := by decide
/-- Vector 2.3: `SET 10 7` writes a cell. -/
theorem test_set_memory : after (fun t => (t.cellAt 10, t.cellAt 1, t.pc)) (image [1, 10, 7, 0]) =
    some (7, 10, 3) := by decide
/-- R131. -/
theorem test_push : after stackAndPc ((image [2, 32768]).setReg 0 5) = some ([5], 2) := by decide
/-- R33: the fault of a finite build. -/
theorem test_push_full : after State.status { image [2, 123] with stack := [1], stackCapacity := some 1 } =
    some (.faulted ⟨.stackOverflow, 0⟩) := by decide
/-- R132. -/
theorem test_pop : after (fun t => (stackAndPc t, (t.reg 2).toNat)) { image [3, 32770] with stack := [5, 9] } =
    some (([5], 2), 9) := by decide
/-- Vector 2.3: the operand is checked before the stack is looked at. -/
theorem test_pop_invalid_before_empty : after State.status (image [3, 32776]) =
    some (.faulted ⟨.invalidRegister 32776, 0⟩) := by decide
/-- Vector 2.4: `EQ R0 R0 0` reads the old content. -/
theorem test_eq_source_is_destination : after (regAndPc 0) (image [4, 32768, 32768, 0]) = some (1, 4) := by decide
/-- Vector 2.4. -/
theorem test_gt_unsigned : after (regAndPc 0) (image [5, 32768, 32767, 0]) = some (1, 4) := by decide
/-- Vector 2.4. -/
theorem test_gt_equal : after (regAndPc 0) ((image [5, 32768, 32767, 32767]).setReg 0 9) = some (0, 4) := by decide
/-- Vector 2.5. -/
theorem test_jmp_register : after (fun t => t.pc) ((image [6, 32769]).setReg 1 77) = some 77 := by decide
/-- Vector 2.5: any value but zero takes the jump. -/
theorem test_jt_taken : after (fun t => t.pc) (image [7, 32767, 50]) = some 50 := by decide
/-- Vector 2.5: the target is resolved though not taken (R96). -/
theorem test_jt_not_taken_invalid : after State.status (image [7, 0, 40000]) =
    some (.faulted ⟨.invalidRegister 40000, 0⟩) := by decide
/-- Vector 2.5. -/
theorem test_jf_taken : after (fun t => t.pc) (image [8, 0, 50]) = some 50 := by decide
/-- Vector 2.5. -/
theorem test_jf_not_taken : after (fun t => t.pc) (image [8, 2, 50]) = some 3 := by decide
/-- R165: the source's example. -/
theorem test_add_wraps : after (regAndPc 0) ((image [9, 32768, 32769, 1]).setReg 1 32767) = some (0, 4) := by decide
/-- Vector 2.6: `ADD R0 R0 R0`. -/
theorem test_add_source_is_destination : after (regAndPc 0) ((image [9, 32768, 32768, 32768]).setReg 0 20000) =
    some (7232, 4) := by decide
/-- Vector 2.6. -/
theorem test_mult_wraps : after (regAndPc 0) (image [10, 32768, 12345, 6789]) = some (22429, 4) := by decide
/-- Vector 2.6. -/
theorem test_mod : after (regAndPc 0) (image [11, 32768, 32766, 1000]) = some (766, 4) := by decide
/-- Vector 2.6: nothing is written. -/
theorem test_mod_by_zero : after (fun t => (t.status, regAndPc 0 t)) ((image [11, 32768, 5, 0]).setReg 0 9) =
    some (.faulted ⟨.divideByZero, 0⟩, (9, 0)) := by decide
/-- Vector 2.6. -/
theorem test_and : after (regAndPc 0) (image [12, 32768, 0x7F0F, 0x00FF]) = some (15, 4) := by decide
/-- Vector 2.6. -/
theorem test_or : after (regAndPc 0) (image [13, 32768, 0x5555, 0x2AAA]) = some (32767, 4) := by decide
/-- Vector 2.6. -/
theorem test_not : after (regAndPc 0) (image [14, 32768, 12345]) = some (20422, 3) := by decide
/-- R185. -/
theorem test_rmem : after (regAndPc 0) (((image [15, 32768, 32769]).setReg 1 100).setCell 100 77) = some (77, 3) := by
  decide
/-- Vector 2.7. -/
theorem test_rmem_not_a_word : after State.status (image [15, 32768, 1]) =
    some (.faulted ⟨.wordRange 32768, 0⟩) := by decide
/-- R186. -/
theorem test_wmem : after (fun t => (t.cellAt 200, regAndPc 0 t))
    (((image [16, 32768, 32769]).setReg 0 200).setReg 1 9) = some (9, (200, 3)) := by decide
/-- Vector P4: the next fetch sees the new cell. -/
theorem test_wmem_modifies_code : after State.fetch (image [16, 4, 66, 19, 65, 0]) = some (.run (.out (.literal 66))) := by
  decide
/-- R153. -/
theorem test_call : after stackAndPc (placed 10 [17, 200]) = some ([12], 200) := by decide
/-- Vector 2.5. -/
theorem test_call_at_32766 : after (fun t => (t.status, t.stack)) (placed 32766 [17, 5]) =
    some (.faulted ⟨.wordRange 32768, 32766⟩, []) := by decide
/-- R154. -/
theorem test_ret : after stackAndPc { placed 205 [18] with stack := [7, 12] } = some ([7], 12) := by decide
/-- Vector S5. -/
theorem test_ret_empty : after (fun t => (t.status, t.pc)) (image [18]) = some (.halted, 32768) := by decide
/-- Vector S6. -/
theorem test_out : after (fun t => (t.output, t.pc)) (image [19, 65, 0]) = some ([65], 2) := by decide
/-- Vector 2.8: the Word is emitted whatever character it may be. -/
theorem test_out_any_word : after State.output ((image [19, 32768]).setReg 0 32767) = some [32767] := by decide
/-- Vector 2.8: a debug write, then the byte. -/
theorem test_in : after (fun t => (t.regs.toList, t.pc, t.supply))
    { image [20, 32768] with supply := [.command (.writeReg 1 5), .byte 120, .byte 9] } =
    some ([120, 5, 0, 0, 0, 0, 0, 0], 2, [.byte 9]) := by decide
/-- Vectors 2.8: a blocked IN, an exit, a failure, an invalid destination with no answer used; and R230: a blocked IN writes
to the destination it has fetched, not to the one its operand cell names by then. -/
theorem test_in_outcomes :
    after (fun t => (t.status, t.pc, t.request, t.enabled)) (image [20, 32768]) =
      some (.running, 0, some (.reg 0), false) ∧
    after State.outcome { image [20, 32768] with supply := [.exit] } = some (some .exitRequested) ∧
    after State.outcome { image [20, 32768] with supply := [.failure] } =
      some (some (.faulted ⟨.readInputErr, 0⟩)) ∧
    after (fun t => (t.status, t.supply)) { image [20, 32776] with supply := [.byte 1] } =
      some (.faulted ⟨.invalidRegister 32776, 0⟩, [.byte 1]) ∧
    after (fun t => t.regs.toList) { image [20, 32769] with request := some (.reg 0), supply := [.byte 7] } =
      some [7, 0, 0, 0, 0, 0, 0, 0] := by decide

/-! ## Fetch, ports, loader, codes and text -/

/-- Vectors 2.9: an instruction at the very top of memory, and the faults of one that does not fit. -/
theorem test_fetch_at_the_top :
    after (regAndPc 0) (placed 32765 [1, 32768, 9]) = some (9, 32768) ∧
    after State.status (placed 32766 [1, 32768]) = some (.faulted ⟨.memOutOfBounds, 32766⟩) ∧
    after State.status (placed 32767 [19]) = some (.faulted ⟨.memOutOfBounds, 32767⟩) ∧
    after State.status (placed 32767 [22]) = some (.faulted ⟨.invalidOperation 22, 32767⟩) ∧
    after (fun t => (t.status, t.pc)) { State.reset with pc := 32768 } = some (.halted, 32768) := by decide

/-- Vectors 2.11. -/
theorem test_launch :
    (launch [0x13, 0x00, 0x41, 0x00, 0x00, 0x80]).toOption.map State.mem = some [(0, 19), (1, 65), (2, 32768)] ∧
    launch [] = .ok State.reset ∧ launch [0] = .error .badBytecodeFormat := by decide

/-- R41, R210: the codes. -/
theorem test_codes :
    [RunStatus.running, .halted, .faulted ⟨.stackOverflow, 0⟩].map RunStatus.code = [0, 1, 2] ∧
    [FaultKind.invalidOperation 0, .invalidRegister 0, .memOutOfBounds, .popFromEmptyStack, .readInputErr, .divideByZero,
      .wordRange 0, .stackOverflow].map FaultKind.ordinal = [3, 4, 5, 6, 7, 11, 12, 13] ∧
    [LoadError.badBytecodeFormat, .badBytecodeLength].map LoadError.ordinal = [1, 2] ∧
    [HostError.serializeErr, .deserializeErr, .ioErr].map HostError.ordinal = [8, 9, 10] := by decide

/-- R231, R232: refused debug writes. -/
theorem test_debug_refusals :
    [DebugCommand.writeReg 8 0, .writeReg 0 32768, .writeMem 0 65536, .writeMem 32768 0].map
      (fun c => (debugCommand c State.reset).2) = [.refused, .refused, .refused, .memOutOfBounds] := by decide

/-- R200: a line is its bytes and the newline; a line with the escape character is a command. -/
theorem test_operator_lines :
    operatorSupply 33 10 (fun _ => .setreg 7 1) [[104, 105], [33, 115], []] =
      [.byte 104, .byte 105, .byte 10, .command (.writeReg 7 1), .byte 10] := by decide

/-- R100: the table read in both directions. -/
theorem test_mnemonics : opcodeOf "RMEM" = some 15 ∧ opcodeOf "rmem" = none ∧ mnemonicOf 21 = some "NOOP" ∧
    mnemonicOf 22 = none := by decide

/-- The word the host places is the one that runs. -/
theorem test_withFetchWord :
    (nextOf (step (State.reset.withFetchWord 64 0x0001800180000009))).map (fun t => (t.started, t.pc)) = some (true, 4) ∧
    State.fetch (State.reset.withFetchWord 64 0x0001800180000009) =
      .run (.add (.register 0) (.register 1) (.literal 1)) := by decide

/-! ## Witnesses: a state and operands that meet all the hypotheses of a statement, at the ends of their ranges -/

/-- A state whose memory, stack, registers and capacity are all in use. -/
def busy : State :=
  { State.reset with
    regs := #v[1, 2, 3, 4, 5, 6, 7, 32767]
    mem := [(0, 1), (100, 32767), (32767, 65535)]
    stack := [5, 9]
    supply := [.byte 255]
    stackCapacity := some 3
    started := true }

/-- A state with one entry on a full stack. -/
def full : State := { busy with stackCapacity := some 2 }

theorem witness_DecodeOfEncode :
    (Instr.add (.register 7) (.literal 32767) (.invalid 32776)).encodable = true ∧
    (Instr.add (.invalid 65535) (.literal 0) (.register 0)).encodable = true ∧ Instr.halt.encodable = true := by decide

theorem witness_DecodedCellsAreTheEncoding :
    decode [1, 32768, 65535, 99] = .instr (.set (.register 0) (.invalid 65535)) [99] := by decide

theorem witness_TableAgreesWithInstructions :
    (Instr.inp (.literal 0)).destination? = some (.literal 0) ∧ Instr.halt.destination? = none := by decide

theorem witness_StepRunsTheDecodedInstruction :
    (placed 32764 [9, 32768, 1, 1]).betweenInstructions = true ∧
    (Instr.add (.register 0) (.literal 1) (.literal 1)).encodable = true ∧
    (placed 32764 [9, 32768, 1, 1]).pc.toNat +
      (encode (Instr.add (.register 0) (.literal 1) (.literal 1))).length ≤ 32768 ∧
    ∀ n c, (encode (Instr.add (.register 0) (.literal 1) (.literal 1)))[n]? = some c →
      (placed 32764 [9, 32768, 1, 1]).cellAt ((placed 32764 [9, 32768, 1, 1]).pc.toNat + n) = c := by
  refine ⟨by decide, by decide, by decide, fun n c h => ?_⟩
  rcases n with _ | _ | _ | _ | n <;> first | cases h; decide | cases h

theorem witness_FetchReadsTheCellsAsTheyStand :
    busy.pc = (busy.setCell 4 7).pc ∧
    (∀ n, n < 4 → busy.cellAt (busy.pc.toNat + n) = (busy.setCell 4 7).cellAt (busy.pc.toNat + n)) ∧
    busy ≠ busy.setCell 4 7 := by decide

theorem witness_OpcodeAbove21Faults :
    (placed 32767 [22]).betweenInstructions = true ∧ (placed 32767 [22]).pc.toNat < 32768 ∧
    21 < ((placed 32767 [22]).cellAt (placed 32767 [22]).pc.toNat).toNat ∧
    21 < ((placed 0 [65535]).cellAt (placed 0 [65535]).pc.toNat).toNat := by decide

theorem witness_SentinelHalts :
    ({ busy with pc := 32768 } : State).betweenInstructions = true ∧ ({ busy with pc := 32768 } : State).pc = 32768#16 := by
  decide

/-- The three clauses at the ends of their ranges. -/
theorem witness_ValueOperandArms :
    (0#16).toNat ≤ 32767 ∧ (32767#16).toNat ≤ 32767 ∧
    (32768 ≤ (32768#16).toNat ∧ (32768#16).toNat ≤ 32775) ∧ (32768 ≤ (32775#16).toNat ∧ (32775#16).toNat ≤ 32775) ∧
    32776 ≤ (32776#16).toNat ∧ 32776 ≤ (65535#16).toNat := by decide

/-- The premise; the clauses are those of the value operand. -/
theorem witness_DestinationOperandArms : busy.mem.wf ∧
    (32767#16).toNat ≤ 32767 ∧ 32768 ≤ (32768#16).toNat ∧ (32775#16).toNat ≤ 32775 ∧ 32776 ≤ (32776#16).toNat := by
  decide

theorem witness_MemReadAndMemWrite : busy.mem.wf ∧ 0 < 32768 ∧ 32767 < 32768 ∧ 32768 ≤ 32768 := by decide

theorem witness_CanonicalMemoryLaws : busy.mem.wf ∧ 32767 < 32768 ∧
    (busy.mem.write 100 32767).wf ∧ ∀ a, a < 32768 → (busy.mem.write 100 32767).read a = busy.mem.read a := by
  refine ⟨by decide, by decide, by decide, fun a _ => ?_⟩
  rw [show busy.mem.write 100 32767 = busy.mem by decide]

theorem witness_PushAndPop :
    State.reset.stackCapacity = none ∧ (busy.stackCapacity = some 3 ∧ busy.stack.length < 3) ∧
    (full.stackCapacity = some 2 ∧ 2 ≤ full.stack.length) ∧ State.reset.stack = [] ∧ busy.stack = [5] ++ [9] := by decide

/-- FetchFaults of every instruction with operands, with the first missing operand cell at 32768 and with all of them
missing: the opcode, its arity, and `pc`. -/
theorem witness_FetchFaults :
    ∀ p ∈ ([(1, 2), (2, 1), (3, 1), (4, 3), (5, 3), (6, 1), (7, 2), (8, 2), (9, 3), (10, 3), (11, 3)] ++
        [(12, 3), (13, 3), (14, 2), (15, 2), (16, 2), (17, 1), (19, 1), (20, 1)] : List (Nat × Nat)),
      ∀ pc ∈ [32768 - p.2, 32767],
        (placed pc [BitVec.ofNat 16 p.1]).betweenInstructions = true ∧
        (placed pc [BitVec.ofNat 16 p.1]).pc.toNat < 32768 ∧
        (placed pc [BitVec.ofNat 16 p.1]).cellAt (placed pc [BitVec.ofNat 16 p.1]).pc.toNat = BitVec.ofNat 16 p.1 ∧
        32768 ≤ (placed pc [BitVec.ofNat 16 p.1]).pc.toNat + p.2 := by decide

/-- The operand hypotheses of the statements of single instructions: destinations and values at both ends. -/
theorem witness_operands :
    dst (.literal 32767) = .ok (.cell 32767) ∧ dst (.literal 0) = .ok (.cell 0) ∧ dst (.register 7) = .ok (.reg 7) ∧
    dst (.register 0) = .ok (.reg 0) ∧ busy.val (.literal 32767) = .ok 32767 ∧ busy.val (.literal 0) = .ok 0 ∧
    busy.val (.register 7) = .ok 32767 ∧ busy.val (.register 0) = .ok 1 := ⟨rfl, rfl, rfl, rfl, rfl, rfl, rfl, rfl⟩

theorem witness_SetCopiesTheValue :
    dst (.register 0) = .ok (.reg 0) ∧ busy.val (.register 7) = .ok 32767 ∧
    (fun (_ : State) (v : Word) => some v) busy 32767 = some 32767 := ⟨rfl, rfl, rfl⟩

/-- With no capacity, with room for one more, and full. -/
theorem witness_PushAppendsTheValue :
    busy.val (.register 7) = .ok 32767 ∧ (∀ n, State.reset.stackCapacity = some n → State.reset.stack.length < n) ∧
    (∀ n, busy.stackCapacity = some n → busy.stack.length < n) ∧
    full.val (.register 7) = .ok 32767 ∧ full.stackCapacity = some 2 ∧ 2 ≤ full.stack.length :=
  ⟨rfl, nofun, fun n h => by cases h; decide, rfl, rfl, by decide⟩

theorem witness_PopMovesTheTop :
    dst (.literal 32767) = .ok (.cell 32767) ∧ State.reset.stack = [] ∧ busy.stack = [5] ++ [9] := ⟨rfl, rfl, rfl⟩

/-- EQ, GT, ADD, MULT, AND and OR: their results have no condition. -/
theorem witness_DestinationAndTwoValues :
    dst (.register 7) = .ok (.reg 7) ∧ busy.val (.literal 32767) = .ok 32767 ∧ busy.val (.register 0) = .ok 1 ∧
    (fun u v : Word => some (BitVec.ofNat 15 ((u.toNat + v.toNat) % 32768))) 32767 1 = some 0 := ⟨rfl, rfl, rfl, rfl⟩

/-- A divisor of 1, and of 0. -/
theorem witness_ModLeavesTheRemainder :
    dst (.register 7) = .ok (.reg 7) ∧ busy.val (.literal 32767) = .ok 32767 ∧ busy.val (.register 0) = .ok 1 ∧
    (if (1#15).toNat = 0 then none else some (BitVec.ofNat 15 ((32767#15).toNat % (1#15).toNat))) = some 0#15 ∧
    busy.val (.literal 0) = .ok 0#15 := ⟨rfl, rfl, rfl, rfl, rfl⟩

theorem witness_JtAndJf :
    busy.val (.literal 0) = .ok 0 ∧ busy.val (.literal 32767) = .ok 32767 ∧ busy.val (.register 0) = .ok 1 :=
  ⟨rfl, rfl, rfl⟩

/-- A cell that holds the largest Word, and one that holds no Word. -/
theorem witness_RmemLoadsAWord :
    dst (.register 0) = .ok (.reg 0) ∧ busy.val (.literal 100) = .ok 100 ∧ ¬ 32767 < (busy.cellAt 100).toNat ∧
    busy.val (.register 7) = .ok 32767 ∧ 32767 < (busy.cellAt (32767#15).toNat).toNat :=
  ⟨rfl, rfl, by decide, rfl, by decide⟩

theorem witness_WmemStoresTheValue :
    busy.mem.wf ∧ busy.val (.register 7) = .ok 32767 ∧ busy.val (.literal 0) = .ok 0 := ⟨by decide, rfl, rfl⟩

/-- `pc` at 32766 and at 32765; room and no room. -/
theorem witness_CallPushesTheReturnAddress :
    busy.val (.register 7) = .ok 32767 ∧ (placed 32766 [17, 5]).pc = 32766#16 ∧
    (placed 32765 [17, 5]).pc.toNat ≤ 32765 ∧ (∀ n, busy.stackCapacity = some n → busy.stack.length < n) ∧
    busy.pc.toNat ≤ 32765 ∧ full.pc.toNat ≤ 32765 ∧ full.stackCapacity = some 2 ∧ 2 ≤ full.stack.length :=
  ⟨rfl, rfl, by decide, fun n h => by cases h; decide, by decide, by decide, rfl, by decide⟩

theorem witness_RetReturnsOrHalts : State.reset.stack = [] ∧ busy.stack = [5] ++ [9] := ⟨rfl, rfl⟩

/-- A byte, a failure and no answer. -/
theorem witness_InWritesTheByte :
    dst (.literal 50) = .ok (.cell 50) ∧ busy.supply = .byte 255 :: [] ∧
    ({ busy with supply := [.failure, .byte 1] } : State).supply = .failure :: [.byte 1] ∧ State.reset.supply = [] :=
  ⟨rfl, rfl, rfl, rfl⟩

theorem witness_ExitEndsTheRunAtTheIn :
    dst (.register 7) = .ok (.reg 7) ∧ busy.status = .running ∧
    ({ busy with supply := [.exit, .byte 1] } : State).supply = .exit :: [.byte 1] := ⟨rfl, rfl, rfl⟩

theorem witness_CommandLeavesTheInOutstanding :
    (DebugCommand.writeReg 7 32767).isLoadState = false ∧ DebugCommand.snapshot.isLoadState = false := by decide

theorem witness_BlockingIsTransparent :
    dst (.register 7) = .ok (.reg 7) ∧ busy.betweenInstructions = true ∧
    ∀ c ∈ [DebugCommand.writeReg 7 1, .writeMem 1 32769], c.isLoadState = false := by decide

theorem witness_WhatHasNoMeaningIsRefused :
    dst (.register 7) = .ok (.reg 7) ∧
    ({ busy with supply := [.command (.loadState ⟨[], [], [], 0⟩)] } : State).supply =
      .command (.loadState ⟨[], [], [], 0⟩) :: [] ∧
    ({ busy with pc := 32769 } : State).betweenInstructions = true ∧
    32768 < ({ busy with pc := 32769 } : State).pc.toNat := ⟨rfl, rfl, by decide, by decide⟩

theorem witness_FrameOfInstructionsWithADestination :
    (Instr.pop (.literal 100)).destination? = some (.literal 100) ∧ Instr.pop (.literal 100) ≠ .inp (.literal 100) ∧
    exec (.pop (.literal 100)) busy =
      .next ((({ busy with stack := [5] } : State).put (.cell 100) 9).advance 2) := ⟨rfl, by decide, rfl⟩

theorem witness_FrameOfWmem :
    exec (.wmem (.register 7) (.literal 0)) busy = .next ((busy.setCell 32767 0).advance 3) := rfl

theorem witness_FrameOfInstructionsThatStoreNothing :
    (Instr.push (.literal 1)).destination? = none ∧ (∀ a b, Instr.push (.literal 1) ≠ .wmem a b) ∧
    exec (.push (.literal 1)) busy = .next (({ busy with stack := [5, 9, 1] } : State).advance 2) :=
  ⟨rfl, nofun, rfl⟩

theorem witness_FrameOfIn :
    Statements.NoCommands busy ∧
    exec (.inp (.register 7)) busy =
      .next ((({ busy with supply := [] } : State).put (.reg 7) 255).advance 2) :=
  ⟨fun c => by simp [busy], rfl⟩

/-- The reset state and a state in use meet the invariants, and have a next state. -/
theorem witness_StepKeepsTheInvariants :
    State.reset.Inv ∧ busy.Inv ∧ ∃ t, step busy = .next t :=
  ⟨⟨by decide, by decide, nofun, nofun, nofun, nofun⟩,
    ⟨by decide, by decide, nofun, fun n h => by cases h; decide, nofun, nofun⟩, _, rfl⟩

theorem witness_EveryStepCompletes :
    busy.Inv ∧ Statements.NoLoadState busy ∧ Statements.NoLoadState State.reset :=
  ⟨⟨by decide, by decide, nofun, fun n h => by cases h; decide, nofun, nofun⟩, fun c => by simp [busy],
    fun c => by simp [State.reset]⟩

/-- A POP on an empty stack, and an IN that fails after a debug command. -/
theorem witness_FaultsArePrecise :
    (image [3, 32768]).status = .running ∧
    step (image [3, 32768]) = .next ((image [3, 32768]).markStarted.raise .popFromEmptyStack) ∧
    ((image [3, 32768]).markStarted.raise .popFromEmptyStack).status = .faulted ⟨.popFromEmptyStack, 0⟩ ∧
    after State.status { image [20, 32768] with supply := [.command (.writeReg 1 5), .failure] } =
      some (.faulted ⟨.readInputErr, 0⟩) := ⟨rfl, rfl, rfl, by decide⟩

/-- A fault of each kind. -/
theorem witness_EveryFaultHasItsCause :
    [image [22], image [2, 32776], placed 32767 [19], image [3, 32768],
      { image [20, 32768] with supply := [.failure] }, image [11, 32768, 5, 0], image [15, 32768, 1],
      { image [2, 1] with stackCapacity := some 0 }].map (after State.status) =
    [some (.faulted ⟨.invalidOperation 22, 0⟩), some (.faulted ⟨.invalidRegister 32776, 0⟩),
      some (.faulted ⟨.memOutOfBounds, 32767⟩), some (.faulted ⟨.popFromEmptyStack, 0⟩),
      some (.faulted ⟨.readInputErr, 0⟩), some (.faulted ⟨.divideByZero, 0⟩), some (.faulted ⟨.wordRange 32768, 0⟩),
      some (.faulted ⟨.stackOverflow, 0⟩)] := by decide

/-- The three ways to halt. -/
theorem witness_OnlyThreeWaysToHalt :
    [({ State.reset with pc := 32768 } : State), image [0], image [18]].map (after State.outcome) =
      [some (some .halted), some (some .halted), some (some .halted)] := by decide

theorem witness_EndedRunsStayAsTheyAre :
    ({ busy with status := .halted } : State).outcome ≠ none ∧
    ({ busy with status := .faulted ⟨.divideByZero, 0⟩ } : State).outcome ≠ none ∧
    ({ busy with exitRequested := true } : State).outcome ≠ none := by decide

/-- A store, on a state whose stack is in use. -/
theorem witness_OnlyFourInstructionsReachTheStack :
    (∀ a, Instr.wmem (.register 7) (.literal 0) ≠ .push a) ∧ (∀ a, Instr.wmem (.register 7) (.literal 0) ≠ .pop a) ∧
    (∀ a, Instr.wmem (.register 7) (.literal 0) ≠ .call a) ∧ Instr.wmem (.register 7) (.literal 0) ≠ .ret ∧
    exec (.wmem (.register 7) (.literal 0)) busy = .next ((busy.setCell 32767 0).advance 3) ∧
    Statements.NoCommands busy := ⟨nofun, nofun, nofun, nofun, rfl, fun c => by simp [busy]⟩

theorem witness_EngineWritesOnlyWords :
    busy.mem.wf ∧ Statements.NoCommands busy ∧ ∃ t, step busy = .next t := ⟨by decide, fun c => by simp [busy], _, rfl⟩

theorem witness_UnnamedRegistersDoNotMatter :
    Statements.Unnamed 1 (.add (.register 0) (.register 7) (.literal 1)) ∧ Statements.NoCommands busy :=
  ⟨by unfold Statements.Unnamed; decide, fun c => by simp [busy]⟩

/-- A divisor, and a dividend below it. -/
theorem witness_AluIdentities : aluRem 32767 2 = .ok 1 ∧ (5#15).toNat < (32767#15).toNat := by decide

/-- A legal image of two bytes, an odd one, and (by its length) one too long. -/
theorem witness_ImageIsLaunchedFromZero :
    ([0xFF, 0xFF] : List (BitVec 8)).length ≤ 65536 ∧ ([0xFF, 0xFF] : List (BitVec 8)).length % 2 = 0 ∧
    ([0xFF, 0x80] : List (BitVec 8))[2 * 0]? = some 0xFF ∧ ([0xFF, 0x80] : List (BitVec 8))[2 * 0 + 1]? = some 0x80 ∧
    ([0] : List (BitVec 8)).length % 2 = 1 ∧ 65536 < (List.replicate 65537 (0 : BitVec 8)).length := by
  refine ⟨by decide, by decide, by decide, by decide, by decide, ?_⟩
  rw [List.length_replicate]
  decide

theorem witness_SaveThenLoadIsTheIdentity :
    State.reset.Inv ∧ State.reset.portOpen = true ∧ State.reset.request = none ∧
    ({ busy with status := .faulted ⟨.divideByZero, 0⟩ } : State).portOpen = true :=
  ⟨⟨by decide, by decide, nofun, nofun, nofun, nofun⟩, rfl, rfl, rfl⟩

/-- A snapshot that is loaded, and one that is refused. -/
theorem witness_LoadStateReplacesOrIsRefused :
    (⟨[0, 65535], [0, 1, 2, 3, 4, 5, 6, 32767], [32767], 32768⟩ : Snapshot).inRange = true ∧
    (⟨[0, 65535], [0, 1, 2, 3, 4, 5, 6, 32767], [32767], 32768⟩ : Snapshot).fits busy = true ∧
    (⟨[], [0, 1, 2, 3, 4, 5, 6, 32768], [], 0⟩ : Snapshot).inRange = false := by decide

/-- The ends of the ranges of register numbers, addresses and values. -/
theorem witness_DebugPortReadsAndWrites :
    (8 ≤ 8) ∧ (8 ≤ 8 ∨ 32768 ≤ 0) ∧ (8 ≤ 7 ∨ 32768 ≤ 32768) ∧ 32767 < 32768 ∧ (0 < 32768 ∧ 65536 ≤ 65536) ∧
    32768 ≤ 32768 ∧ (DebugCommand.failed .ioErr).isLoadState = false := by decide

theorem witness_PortIsClosedWhileTheEngineWorks : busy.started = true ∧ busy.betweenInstructions = true := by decide

end Sys2Proof.Tests
end

/-! The proofs of the family 00_scope: a step fetches the instruction whose cells stand at `pc` and runs it. -/

namespace Sys2Proof

open Laws in
/-- R80 to R89: the round trip of every constructor (Laws/PerInstr), as one fact about `decode` and `encode`. -/
theorem decode_encode {i : Instr} (he : i.encodable = true) (rest : List Cell) :
    decode (encode i ++ rest) = .instr i rest := by
  revert he rest
  show RoundTrip.Statement i
  cases i with
  | halt => exact RoundTrip.halt
  | set a b => exact RoundTrip.set a b
  | push a => exact RoundTrip.push a
  | pop a => exact RoundTrip.pop a
  | eq a b c => exact RoundTrip.eq a b c
  | gt a b c => exact RoundTrip.gt a b c
  | jmp a => exact RoundTrip.jmp a
  | jt a b => exact RoundTrip.jt a b
  | jf a b => exact RoundTrip.jf a b
  | add a b c => exact RoundTrip.add a b c
  | mult a b c => exact RoundTrip.mult a b c
  | mod a b c => exact RoundTrip.mod a b c
  | and a b c => exact RoundTrip.and a b c
  | or a b c => exact RoundTrip.or a b c
  | not a b => exact RoundTrip.not a b
  | rmem a b => exact RoundTrip.rmem a b
  | wmem a b => exact RoundTrip.wmem a b
  | call a => exact RoundTrip.call a
  | ret => exact RoundTrip.ret
  | out a => exact RoundTrip.out a
  | inp a => exact RoundTrip.inp a
  | noop => exact RoundTrip.noop

@[simp] theorem encode_length (i : Instr) : (encode i).length = i.operands.length + 1 := by
  simp [encode]

/-- R80: an instruction has at most three operand cells. -/
theorem Instr.operands_length_le (i : Instr) : i.operands.length ≤ 3 := by
  cases i <;> simp [Instr.operands]

end Sys2Proof

namespace Sys2Proof.Machine

/-- Cells that stand in memory from `a` on begin every window from `a` that is long enough to show them. -/
theorem State.prefix_cellsFrom {s : State} {a n : Nat} {cells : List Cell} (hn : cells.length ≤ n)
    (hmem : a + cells.length ≤ 32768) (hcells : ∀ k c, cells[k]? = some c → s.cellAt (a + k) = c) :
    cells <+: s.cellsFrom a n := by
  rw [List.prefix_iff_getElem?]
  intro k hk
  rw [s.cellsFrom_getElem a n k (by omega) (by omega), hcells k _ (List.getElem?_eq_getElem hk)]

/-- R95 steps 2 to 4: the fetch answers the instruction whose cells begin the fetch window. -/
theorem State.fetch_of_prefix {s : State} {i : Instr} (he : i.encodable = true) (h : encode i <+: s.fetchCells) :
    s.fetch = .run i := by
  obtain ⟨rest, hrest⟩ := h
  rw [State.fetch, ← hrest, decode_encode he]

/-- R15, R95: a Running state between instructions, with `pc` in memory, executes the instruction it fetches. -/
theorem step_of_fetch {s : State} {i : Instr} (hb : s.betweenInstructions = true) (hpc : s.pc.toNat < 32768)
    (hf : s.fetch = .run i) : step s = exec i s.markStarted := by
  rw [step, nextAction_fetch hb hpc, hf]

end Sys2Proof.Machine

namespace Sys2Proof.Proofs

open Sys2Proof.Machine

/-- Settles O5: the instruction's cells begin the fetch window, so the fetch answers it and the step executes it. -/
theorem stepRunsTheDecodedInstruction : Obligations.StepRunsTheDecodedInstruction := by
  intro s i hb he hmem hcells
  have hlen := encode_length i
  have hwindow : (encode i).length ≤ Config.maxArity + 1 := by
    have := i.operands_length_le
    simp only [hlen, Config.maxArity]
    omega
  have hfetch : s.fetch = .run i := State.fetch_of_prefix he (State.prefix_cellsFrom hwindow hmem hcells)
  exact step_of_fetch hb (by omega) hfetch

end Sys2Proof.Proofs

/-! The proofs of the family 10_state: everything an instruction can do to the state, what every step keeps, and what
an instruction does not see. -/

namespace Sys2Proof.Machine

/-! ## The stack operations by cases of the stack (R33, R34) -/

theorem State.push_of_room {s : State} (room : ∀ n, s.stackCapacity = some n → s.stack.length < n) (v : Word) :
    s.push v = .ok { s with stack := s.stack ++ [v] } := by
  rcases s.push_cases v with ⟨-, h⟩ | ⟨⟨n, hn, hfull⟩, -⟩
  · exact h
  · exact absurd (room n hn) (Nat.not_lt.2 hfull)

theorem State.push_of_full {s : State} {n : Nat} (hn : s.stackCapacity = some n) (hfull : n ≤ s.stack.length)
    (v : Word) : s.push v = .error .stackOverflow := by
  rcases s.push_cases v with ⟨room, -⟩ | ⟨-, h⟩
  · exact absurd (room n hn) (Nat.not_lt.2 hfull)
  · exact h

theorem State.push_ok {s u : State} {v : Word} (h : s.push v = .ok u) :
    (∀ n, s.stackCapacity = some n → s.stack.length < n) ∧ u = { s with stack := s.stack ++ [v] } := by
  rcases s.push_cases v with ⟨room, hp⟩ | ⟨-, hp⟩ <;> rw [hp] at h <;> cases h
  exact ⟨room, rfl⟩

theorem State.pop_of_nil {s : State} (h : s.stack = []) : s.pop = none := by simp [State.pop, h]

theorem State.pop_of_concat {s : State} {below : List Word} {v : Word} (h : s.stack = below ++ [v]) :
    s.pop = some (v, { s with stack := below }) := by simp [State.pop, h]

/-! ## Everything an instruction can do -/

/-- The next states of an instruction (R95 steps 5 to 7), each as the named updates that make it. -/
inductive ExecNext (i : Instr) (s : State) : State → Prop where
  | raised (e : FaultKind) : ExecNext i s (s.raise e)
  | halted (hi : i = .halt ∨ (i = .ret ∧ s.stack = [])) : ExecNext i s s.halt
  | advanced (n : Nat) (hn : n = (encode i).length) : ExecNext i s (s.advance n)
  | jumped (w : Word) : ExecNext i s (s.jump w)
  | emitted (a : Operand) (v : Word) (n : Nat) (hi : i = .out a) (hn : n = (encode i).length) :
      ExecNext i s ((s.emit v).advance n)
  | wrote (a : Operand) (d : Dest) (v : Word) (n : Nat) (hi : i.destination? = some a) (ha : dst a = .ok d)
      (hn : n = (encode i).length) : ExecNext i s ((s.put d v).advance n)
  | stored (a b : Operand) (ea v : Word) (n : Nat) (hi : i = .wmem a b) (ha : s.val a = .ok ea)
      (hn : n = (encode i).length) : ExecNext i s ((s.put (.cell ea) v).advance n)
  | pushed (a : Operand) (v : Word) (n : Nat) (hi : i = .push a)
      (room : ∀ n, s.stackCapacity = some n → s.stack.length < n) (hn : n = (encode i).length) :
      ExecNext i s (State.advance { s with stack := s.stack ++ [v] } n)
  | called (a : Operand) (v w : Word) (hi : i = .call a)
      (room : ∀ n, s.stackCapacity = some n → s.stack.length < n) :
      ExecNext i s (State.jump { s with stack := s.stack ++ [v] } w)
  | popped (a : Operand) (d : Dest) (below : List Word) (v : Word) (n : Nat) (hi : i = .pop a) (ha : dst a = .ok d)
      (hs : s.stack = below ++ [v]) (hn : n = (encode i).length) :
      ExecNext i s ((State.put { s with stack := below } d v).advance n)
  | returned (below : List Word) (w : Word) (hi : i = .ret) (hs : s.stack = below ++ [w]) :
      ExecNext i s (State.jump { s with stack := below } w)
  | served (a : Operand) (d : Dest) (t : State) (hi : i = .inp a) (ha : dst a = .ok d)
      (ht : serveInput d s.supply s = .next t) : ExecNext i s t

theorem ExecNext.of_orRaise {α : Type} {i : Instr} {s t : State} {x : Except FaultKind α} {go : α → Result}
    (h : s.orRaise x go = .next t) (hgo : ∀ v, x = .ok v → go v = .next t → ExecNext i s t) : ExecNext i s t := by
  rcases State.orRaise_next h with ⟨e, -, rfl⟩ | ⟨v, hx, hv⟩
  · exact .raised e
  · exact hgo v hx hv

theorem ExecNext.of_unaryOp {i : Instr} {f : Word → Except FaultKind Word} {a b : Operand} {s t : State}
    (hi : i.destination? = some a) (hn : 3 = (encode i).length) (h : unaryOp f a b s = .next t) : ExecNext i s t := by
  rcases unaryOp_next h with ⟨raw, -, rfl⟩ | ⟨u, e, -, -, rfl⟩ | ⟨d, u, r, ha, -, -, rfl⟩
  · exact .raised _
  · exact .raised e
  · exact .wrote a d r 3 hi ha hn

theorem ExecNext.of_binaryOp {i : Instr} {f : Word → Word → Except FaultKind Word} {a b c : Operand} {s t : State}
    (hi : i.destination? = some a) (hn : 4 = (encode i).length) (h : binaryOp f a b c s = .next t) :
    ExecNext i s t := by
  rcases binaryOp_next h with ⟨raw, -, rfl⟩ | ⟨u, v, e, -, -, -, rfl⟩ | ⟨d, u, v, r, ha, -, -, -, rfl⟩
  · exact .raised _
  · exact .raised e
  · exact .wrote a d r 4 hi ha hn

/-- Every next state of `exec` is one of `ExecNext`'s. -/
theorem exec_next {i : Instr} {s t : State} (h : exec i s = .next t) : ExecNext i s t := by
  cases i with
  | halt => cases h; exact .halted (.inl rfl)
  | set a b => exact .of_unaryOp rfl rfl h
  | push a =>
    exact .of_orRaise h fun v _ h => .of_orRaise h fun u hu h => by
      obtain ⟨room, rfl⟩ := State.push_ok hu
      cases h
      exact .pushed a v 2 rfl room rfl
  | pop a =>
    refine .of_orRaise h fun d ha h => ?_
    rcases s.pop_cases with ⟨-, hp⟩ | ⟨below, v, hs, hp⟩ <;> rw [hp] at h <;> cases h
    · exact .raised _
    · exact .popped a d below v 2 rfl ha hs rfl
  | eq a b c => exact .of_binaryOp rfl rfl h
  | gt a b c => exact .of_binaryOp rfl rfl h
  | jmp a => exact .of_orRaise h fun w _ h => by cases h; exact .jumped w
  | jt a b =>
    refine .of_orRaise h fun u _ h => .of_orRaise h fun w _ h => ?_
    cases h
    split
    · exact .jumped w
    · exact .advanced 3 rfl
  | jf a b =>
    refine .of_orRaise h fun u _ h => .of_orRaise h fun w _ h => ?_
    cases h
    split
    · exact .advanced 3 rfl
    · exact .jumped w
  | add a b c => exact .of_binaryOp rfl rfl h
  | mult a b c => exact .of_binaryOp rfl rfl h
  | mod a b c => exact .of_binaryOp rfl rfl h
  | and a b c => exact .of_binaryOp rfl rfl h
  | or a b c => exact .of_binaryOp rfl rfl h
  | not a b => exact .of_unaryOp rfl rfl h
  | rmem a b => exact .of_unaryOp rfl rfl h
  | wmem a b =>
    refine .of_orRaise h fun ea ha h => .of_orRaise h fun v _ h => ?_
    rw [State.memWrite_word] at h
    cases h
    exact .stored a b ea v 3 rfl ha rfl
  | call a =>
    exact .of_orRaise h fun w _ h => .of_orRaise h fun v _ h => .of_orRaise h fun u hu h => by
      obtain ⟨room, rfl⟩ := State.push_ok hu
      cases h
      exact .called a v w rfl room
  | ret =>
    change execRet s = .next t at h
    unfold execRet at h
    rcases s.pop_cases with ⟨hs, hp⟩ | ⟨below, w, hs, hp⟩ <;> rw [hp] at h <;> cases h
    · exact .halted (.inr ⟨rfl, hs⟩)
    · exact .returned below w rfl hs
  | out a => exact .of_orRaise h fun v _ h => by cases h; exact .emitted a v 2 rfl rfl
  | inp a => exact .of_orRaise h fun d ha h => .served a d t rfl ha h
  | noop => cases h; exact .advanced 1 rfl

/-! ## The invariants (R43), one rule for each update -/

section Inv

variable {s : State} (h : s.Inv)
include h

theorem State.Inv.markStarted : s.markStarted.Inv := { h with }

/-- R216: the record of a fault names the cell at `pc`, so a fault may only be raised with `pc` in memory. -/
theorem State.Inv.raise (hpc : s.pc.toNat < 32768) (e : FaultKind) : (s.raise e).Inv :=
  { h with
    haltedAtSentinel := nofun
    faultInMemory := fun r hr => by cases hr; exact hpc }

theorem State.Inv.halt (hreq : s.request = none) : s.halt.Inv :=
  { h with
    pcInRange := Nat.le_refl 32768
    haltedAtSentinel := fun _ => rfl
    requestInMemory := fun hr => by simp [hreq] at hr
    faultInMemory := nofun }

theorem State.Inv.setPc (hrun : s.status = .running) (hreq : s.request = none) {p : Pc} (hp : p.toNat ≤ 32768) :
    ({ s with pc := p } : State).Inv :=
  { h with
    pcInRange := hp
    haltedAtSentinel := fun hh => by simp [hrun] at hh
    requestInMemory := fun hr => by simp [hreq] at hr }

/-- R26: an instruction whose cells lie in memory advances at most to the sentinel. -/
theorem State.Inv.advance (hrun : s.status = .running) (hreq : s.request = none) {n : Nat}
    (hn : s.pc.toNat + n ≤ 32768) : (s.advance n).Inv :=
  h.setPc hrun hreq (by rw [BitVec.toNat_add, BitVec.toNat_ofNat]; omega)

theorem State.Inv.jump (hrun : s.status = .running) (hreq : s.request = none) (w : Word) : (s.jump w).Inv :=
  h.setPc hrun hreq (by have := w.isLt; rw [Word.toCell_toNat]; omega)

theorem State.Inv.emit (v : Word) : (s.emit v).Inv := { h with }

theorem State.Inv.put (d : Dest) (v : Word) : (s.put d v).Inv where
  pcInRange := by simpa using h.pcInRange
  memCanonical := State.put_mem_wf h.memCanonical d v
  haltedAtSentinel := by simpa using h.haltedAtSentinel
  stackFits := by simpa using h.stackFits
  requestInMemory := by simpa using h.requestInMemory
  faultInMemory := by simpa using h.faultInMemory

theorem State.Inv.setStack {entries : List Word} (hfits : ∀ n, s.stackCapacity = some n → entries.length ≤ n) :
    ({ s with stack := entries } : State).Inv := { h with stackFits := hfits }

theorem State.Inv.pushed (room : ∀ n, s.stackCapacity = some n → s.stack.length < n) (v : Word) :
    ({ s with stack := s.stack ++ [v] } : State).Inv :=
  h.setStack fun n hn => by simpa using room n hn

theorem State.Inv.popped {below : List Word} {v : Word} (hs : s.stack = below ++ [v]) :
    ({ s with stack := below } : State).Inv :=
  h.setStack fun n hn => by
    have := h.stackFits n hn
    rw [hs, List.length_append] at this
    omega

/-- The record of the input port may change freely: a request once made must have its two cells in memory. -/
theorem State.Inv.setPorts (supply : List HostAnswer) {request : Option Dest}
    (hreq : request.isSome = true → s.pc.toNat + 2 ≤ 32768) (exited : Bool) :
    ({ s with supply := supply, request := request, exitRequested := exited } : State).Inv :=
  { h with requestInMemory := hreq }

theorem State.Inv.debugged {t : State} (k : DebugKept s t) : t.Inv where
  pcInRange := k.pc ▸ h.pcInRange
  memCanonical := k.memWf h.memCanonical
  haltedAtSentinel := by rw [k.status, k.pc]; exact h.haltedAtSentinel
  stackFits := by rw [k.stackCapacity, k.stack]; exact h.stackFits
  requestInMemory := by rw [k.request, k.pc]; exact h.requestInMemory
  faultInMemory := by rw [k.status]; exact h.faultInMemory

/-- However an IN whose cells lie in memory ends, the invariants hold. -/
theorem State.Inv.serveInput (hrun : s.status = .running) (hcells : s.pc.toNat + 2 ≤ 32768) {d : Dest}
    {answers : List HostAnswer} {t : State} (ht : serveInput d answers s = .next t) : t.Inv := by
  obtain ⟨cmds, rest, -, hc, hend⟩ := serveInput_next ht
  have kept := State.debuggedAll_kept hc s
  have hu := h.debugged kept
  rw [← kept.status] at hrun
  rw [← kept.pc] at hcells
  have hports := hu.setPorts (request := none) (hreq := nofun)
  rcases hend with ⟨-, rfl⟩ | ⟨b, r, -, rfl⟩ | ⟨r, -, rfl⟩ | ⟨r, -, rfl⟩
  · exact hu.setPorts [] (fun _ => hcells) _
  · exact ((hports r _).put d _).advance (by simpa using hrun) (by simp) (by simpa using hcells)
  · exact (hports _ _).raise (by simp; omega) _
  · exact hports r true

/-- R43: an instruction whose cells lie in memory keeps the invariants. -/
theorem State.Inv.exec (hrun : s.status = .running) (hreq : s.request = none) {i : Instr}
    (hcells : s.pc.toNat + (encode i).length ≤ 32768) {t : State} (ht : exec i s = .next t) : t.Inv := by
  have hpc : s.pc.toNat < 32768 := by rw [encode_length] at hcells; omega
  cases exec_next ht with
  | raised e => exact h.raise hpc e
  | halted _ => exact h.halt hreq
  | advanced n hn => exact h.advance hrun hreq (hn ▸ hcells)
  | jumped w => exact h.jump hrun hreq w
  | emitted a v n _ hn => exact (h.emit v).advance hrun hreq (hn ▸ hcells)
  | wrote a d v n _ _ hn =>
    exact (h.put d v).advance (by simpa using hrun) (by simpa using hreq) (by simpa [hn] using hcells)
  | stored a b ea v n _ _ hn => exact (h.put (.cell ea) v).advance hrun hreq (hn ▸ hcells)
  | pushed a v n _ room hn => exact (h.pushed room v).advance hrun hreq (hn ▸ hcells)
  | called a v w _ room => exact (h.pushed room v).jump hrun hreq w
  | popped a d below v n _ _ hs hn =>
    exact ((h.popped hs).put d v).advance (by simpa using hrun) (by simpa using hreq) (by simpa [hn] using hcells)
  | returned below w _ hs => exact (h.popped hs).jump hrun hreq w
  | served a d _ hi _ hserve =>
    subst hi
    exact h.serveInput hrun (by simpa [Instr.operands] using hcells) hserve

end Inv

theorem State.Inv.step {s t : State} (h : s.Inv) (ht : step s = .next t) : t.Inv := by
  rcases step_next ht with
    ⟨-, rfl⟩ | ⟨he, d, hd, hserve⟩ | ⟨hb, -, rfl⟩ | ⟨-, hpc, e, -, rfl⟩ | ⟨hb, i, -, hcells, hexec⟩
  · exact h
  · obtain ⟨hrun, -⟩ := s.ended_eq_false_iff.1 he
    exact h.serveInput hrun (h.requestInMemory (by simp [hd])) hserve
  · obtain ⟨-, -, hreq⟩ := s.betweenInstructions_iff.1 hb
    exact h.markStarted.halt hreq
  · exact h.markStarted.raise hpc e
  · obtain ⟨hrun, -, hreq⟩ := s.betweenInstructions_iff.1 hb
    exact h.markStarted.exec hrun hreq hcells hexec

theorem State.reset_inv : State.reset.Inv where
  pcInRange := by decide
  memCanonical := Memory.wf_nil
  haltedAtSentinel := nofun
  stackFits := nofun
  requestInMemory := nofun
  faultInMemory := nofun

/-! ## No instruction stops the model (R240) -/

theorem State.orRaise_completes {α : Type} (s : State) (x : Except FaultKind α) {go : α → Result}
    (hgo : ∀ v, ∃ t, go v = .next t) : ∃ t, s.orRaise x go = .next t := by
  cases x with
  | error e => exact ⟨_, rfl⟩
  | ok v => exact hgo v

theorem unaryOp_completes (f : Word → Except FaultKind Word) (a b : Operand) (s : State) :
    ∃ t, unaryOp f a b s = .next t :=
  s.orRaise_completes _ fun _ => s.orRaise_completes _ fun _ => s.orRaise_completes _ fun _ => ⟨_, rfl⟩

theorem binaryOp_completes (f : Word → Word → Except FaultKind Word) (a b c : Operand) (s : State) :
    ∃ t, binaryOp f a b c s = .next t :=
  s.orRaise_completes _ fun _ => s.orRaise_completes _ fun _ => s.orRaise_completes _ fun _ =>
    s.orRaise_completes _ fun _ => ⟨_, rfl⟩

open Statements in
theorem exec_completes (i : Instr) {s : State} (hsup : NoLoadState s) : ∃ t, exec i s = .next t := by
  cases i with
  | halt => exact ⟨_, rfl⟩
  | set a b => exact unaryOp_completes _ a b s
  | push a => exact s.orRaise_completes _ fun _ => s.orRaise_completes _ fun _ => ⟨_, rfl⟩
  | pop a =>
    refine s.orRaise_completes _ fun d => ?_
    cases s.pop with
    | none => exact ⟨_, rfl⟩
    | some _ => exact ⟨_, rfl⟩
  | eq a b c => exact binaryOp_completes _ a b c s
  | gt a b c => exact binaryOp_completes _ a b c s
  | jmp a => exact s.orRaise_completes _ fun _ => ⟨_, rfl⟩
  | jt a b => exact s.orRaise_completes _ fun _ => s.orRaise_completes _ fun _ => ⟨_, rfl⟩
  | jf a b => exact s.orRaise_completes _ fun _ => s.orRaise_completes _ fun _ => ⟨_, rfl⟩
  | add a b c => exact binaryOp_completes _ a b c s
  | mult a b c => exact binaryOp_completes _ a b c s
  | mod a b c => exact binaryOp_completes _ a b c s
  | and a b c => exact binaryOp_completes _ a b c s
  | or a b c => exact binaryOp_completes _ a b c s
  | not a b => exact unaryOp_completes _ a b s
  | rmem a b => exact unaryOp_completes _ a b s
  | wmem a b =>
    exact s.orRaise_completes _ fun _ => s.orRaise_completes _ fun _ => s.orRaise_completes _ fun _ => ⟨_, rfl⟩
  | call a =>
    exact s.orRaise_completes _ fun _ => s.orRaise_completes _ fun _ => s.orRaise_completes _ fun _ => ⟨_, rfl⟩
  | ret =>
    show ∃ t, execRet s = .next t
    unfold execRet
    cases s.pop with
    | none => exact ⟨_, rfl⟩
    | some _ => exact ⟨_, rfl⟩
  | out a => exact s.orRaise_completes _ fun _ => ⟨_, rfl⟩
  | inp a => exact s.orRaise_completes _ fun d => serveInput_completes d hsup s
  | noop => exact ⟨_, rfl⟩

/-! ## How a run ends (R36, R223) -/

/-- R223: a run has an outcome exactly when it has ended. -/
theorem State.ended_iff_outcome (s : State) : s.ended = true ↔ s.outcome ≠ none := by
  unfold State.ended State.outcome
  cases s.status with
  | running => cases s.exitRequested <;> simp
  | halted => simp
  | faulted r => simp

theorem State.successful_iff (s : State) : s.Successful ↔ s.status = .halted := by
  unfold State.Successful State.outcome
  cases s.status with
  | running => cases s.exitRequested <;> simp
  | halted => simp
  | faulted r => simp

/-- Serving an IN leaves the stack alone and does not halt the machine (R32, R36). -/
theorem serveInput_stack_status {d : Dest} {answers : List HostAnswer} {s t : State}
    (h : serveInput d answers s = .next t) :
    t.stack = s.stack ∧ (t.status = s.status ∨ ∃ r, t.status = .faulted r) := by
  obtain ⟨cmds, rest, -, hc, hend⟩ := serveInput_next h
  have kept := State.debuggedAll_kept hc s
  rcases hend with ⟨-, rfl⟩ | ⟨b, r, -, rfl⟩ | ⟨r, -, rfl⟩ | ⟨r, -, rfl⟩
  · exact ⟨kept.stack, .inl kept.status⟩
  · exact ⟨by simpa [State.tookByte] using kept.stack, .inl (by simpa [State.tookByte] using kept.status)⟩
  · exact ⟨kept.stack, .inr ⟨_, rfl⟩⟩
  · exact ⟨kept.stack, .inl kept.status⟩

theorem serveInput_ne_halted {d : Dest} {answers : List HostAnswer} {s t : State} (hrun : s.status = .running)
    (h : serveInput d answers s = .next t) : t.status ≠ .halted := by
  rcases (serveInput_stack_status h).2 with hs | ⟨r, hs⟩ <;> simp [hs, hrun]

/-- R120, R154: of all instructions only HALT, and RET on an empty stack, halt a Running machine. -/
theorem exec_halted {i : Instr} {s t : State} (hrun : s.status = .running) (h : exec i s = .next t)
    (ht : t.status = .halted) : t.pc = 32768#16 ∧ (i = .halt ∨ (i = .ret ∧ s.stack = [])) := by
  cases exec_next h with
  | halted hi => exact ⟨rfl, hi⟩
  | served a d _ _ _ hserve => exact absurd ht (serveInput_ne_halted hrun hserve)
  | _ => simp [hrun] at ht

open Statements

/-! ## What an instruction does not see: updates of registers and stack that commute with it (R20, R32) -/

/-- Another register file and another stack in a state. -/
def State.mapRegsStack (g : Vector Word 8 → Vector Word 8) (h : List Word → List Word) (s : State) : State :=
  { s with regs := g s.regs, stack := h s.stack }

/-- An operand does not see the update `g` of the register file: the register it names, if any, reads the same after
`g`, and a write to it may come before or after `g`. -/
def Overlooks (g : Vector Word 8 → Vector Word 8) (o : Operand) : Prop :=
  ∀ k, o = .register k → ∀ r, (g r)[k] = r[k] ∧ ∀ v, (g r).set k v = g (r.set k v)

/-- The result `y` is the result `x` with `f` applied to its next state. -/
def Tracks (f : State → State) (x y : Result) : Prop := nextOf y = (nextOf x).map f

/-- The instructions that reach the stack (R32). -/
def ReachesStack (i : Instr) : Prop :=
  (∃ a, i = .push a) ∨ (∃ a, i = .pop a) ∨ (∃ a, i = .call a) ∨ i = .ret

section Tracks

variable {g : Vector Word 8 → Vector Word 8} {h : List Word → List Word} {s : State}

theorem State.val_mapRegsStack {o : Operand} (ho : Overlooks g o) : (s.mapRegsStack g h).val o = s.val o := by
  cases o with
  | literal v => rfl
  | register k => exact congrArg Except.ok (ho k rfl s.regs).1
  | invalid raw => rfl

theorem State.put_mapRegsStack {o : Operand} {d : Dest} (ho : Overlooks g o) (hd : dst o = .ok d) (v : Word) :
    (s.mapRegsStack g h).put d v = (s.put d v).mapRegsStack g h := by
  rcases dst_ok hd with ⟨a, -, rfl⟩ | ⟨k, hk, rfl⟩
  · rfl
  · simp only [State.put, State.setReg, State.mapRegsStack, (ho k hk s.regs).2 v]

theorem Tracks.next {f : State → State} {t u : State} (e : u = f t) : Tracks f (.next t) (.next u) :=
  congrArg some e

theorem Tracks.orRaise {α : Type} {x y : Except FaultKind α} {go go' : α → Result} (e : y = x)
    (hgo : ∀ v, x = .ok v → Tracks (State.mapRegsStack g h) (go v) (go' v)) :
    Tracks (State.mapRegsStack g h) (s.orRaise x go) ((s.mapRegsStack g h).orRaise y go') := by
  subst e
  cases y with
  | error e => exact .next rfl
  | ok v => exact hgo v rfl

theorem Tracks.unaryOp (f : Word → Except FaultKind Word) {a b : Operand} (ho : ∀ o ∈ [a, b], Overlooks g o) :
    Tracks (State.mapRegsStack g h) (unaryOp f a b s) (unaryOp f a b (s.mapRegsStack g h)) := by
  have ha := ho a (by simp)
  have hb := ho b (by simp)
  exact .orRaise rfl fun _ hd => .orRaise (State.val_mapRegsStack hb) fun _ _ => .orRaise rfl fun r _ =>
    .next (by rw [State.put_mapRegsStack ha hd r]; rfl)

theorem Tracks.binaryOp (f : Word → Word → Except FaultKind Word) {a b c : Operand}
    (ho : ∀ o ∈ [a, b, c], Overlooks g o) :
    Tracks (State.mapRegsStack g h) (binaryOp f a b c s) (binaryOp f a b c (s.mapRegsStack g h)) := by
  have ha := ho a (by simp)
  have hb := ho b (by simp)
  have hc := ho c (by simp)
  exact .orRaise rfl fun _ hd => .orRaise (State.val_mapRegsStack hb) fun _ _ =>
    .orRaise (State.val_mapRegsStack hc) fun _ _ => .orRaise rfl fun r _ =>
      .next (by rw [State.put_mapRegsStack ha hd r]; rfl)

theorem Tracks.serveInput {a : Operand} {d : Dest} (ha : Overlooks g a) (hd : dst a = .ok d)
    {answers : List HostAnswer} (hsup : ∀ c, HostAnswer.command c ∉ answers) :
    Tracks (State.mapRegsStack g h) (serveInput d answers s) (serveInput d answers (s.mapRegsStack g h)) := by
  cases answers with
  | nil => exact .next rfl
  | cons x rest =>
    cases x with
    | byte b =>
      refine .next ?_
      have := State.put_mapRegsStack (h := h) (s := { s with supply := rest, request := none }) ha hd
      exact congrArg (State.advance · 2) (this (BitVec.ofNat 15 b.toNat))
    | failure => exact .next rfl
    | exit => exact .next rfl
    | command c => exact absurd List.mem_cons_self (hsup c)

/-- With the stack as it is, another register file goes through a push. -/
theorem Tracks.push {v : Word} {go go' : State → Result}
    (hgo : ∀ u, Tracks (State.mapRegsStack g id) (go u) (go' (u.mapRegsStack g id))) :
    Tracks (State.mapRegsStack g id) (s.orRaise (s.push v) go)
      ((s.mapRegsStack g id).orRaise ((s.mapRegsStack g id).push v) go') := by
  rcases s.push_cases v with ⟨room, hp⟩ | ⟨⟨n, hn, hfull⟩, hp⟩
  · rw [hp, State.push_of_room (s := s.mapRegsStack g id) room]
    exact hgo _
  · rw [hp, State.push_of_full (s := s.mapRegsStack g id) hn hfull]
    exact .next rfl

/-- An instruction whose operands overlook `g` gives the same result before and after it, and so it does for an update
`h` of the stack if it does not reach the stack. -/
theorem exec_mapRegsStack {i : Instr} (hi : ∀ o ∈ i.operands, Overlooks g o) (hst : ReachesStack i → h = id)
    (hsup : NoCommands s) : Tracks (State.mapRegsStack g h) (exec i s) (exec i (s.mapRegsStack g h)) := by
  cases i with
  | halt => exact .next rfl
  | set a b => exact .unaryOp _ hi
  | push a =>
    obtain rfl := hst (.inl ⟨a, rfl⟩)
    exact .orRaise (State.val_mapRegsStack (hi a List.mem_cons_self)) fun _ _ => .push fun _ => .next rfl
  | pop a =>
    obtain rfl := hst (.inr (.inl ⟨a, rfl⟩))
    refine .orRaise rfl fun d hd => ?_
    rcases s.pop_cases with ⟨hs, hp⟩ | ⟨below, v, hs, hp⟩
    · rw [hp, State.pop_of_nil (s := s.mapRegsStack g id) hs]
      exact .next rfl
    · rw [hp, State.pop_of_concat (s := s.mapRegsStack g id) hs]
      have := State.put_mapRegsStack (h := id) (s := { s with stack := below }) (hi a List.mem_cons_self) hd v
      exact .next (congrArg (State.advance · 2) this)
  | eq a b c => exact .binaryOp _ hi
  | gt a b c => exact .binaryOp _ hi
  | jmp a => exact .orRaise (State.val_mapRegsStack (hi a List.mem_cons_self)) fun _ _ => .next rfl
  | jt a b =>
    have ha := hi a List.mem_cons_self
    have hb := hi b (List.mem_cons_of_mem _ List.mem_cons_self)
    refine .orRaise (State.val_mapRegsStack ha) fun u _ => .orRaise (State.val_mapRegsStack hb) fun w _ => ?_
    cases isNonzero u <;> exact .next rfl
  | jf a b =>
    have ha := hi a List.mem_cons_self
    have hb := hi b (List.mem_cons_of_mem _ List.mem_cons_self)
    refine .orRaise (State.val_mapRegsStack ha) fun u _ => .orRaise (State.val_mapRegsStack hb) fun w _ => ?_
    cases isNonzero u <;> exact .next rfl
  | add a b c => exact .binaryOp _ hi
  | mult a b c => exact .binaryOp _ hi
  | mod a b c => exact .binaryOp _ hi
  | and a b c => exact .binaryOp _ hi
  | or a b c => exact .binaryOp _ hi
  | not a b => exact .unaryOp _ hi
  | rmem a b => exact .unaryOp (loadWord s) hi
  | wmem a b =>
    have ha := hi a List.mem_cons_self
    have hb := hi b (List.mem_cons_of_mem _ List.mem_cons_self)
    refine .orRaise (State.val_mapRegsStack ha) fun ea _ => .orRaise (State.val_mapRegsStack hb) fun v _ => ?_
    rw [State.memWrite_word, State.memWrite_word]
    exact .next rfl
  | call a =>
    obtain rfl := hst (.inr (.inr (.inl ⟨a, rfl⟩)))
    exact .orRaise (State.val_mapRegsStack (hi a List.mem_cons_self)) fun _ _ => .orRaise rfl fun _ _ =>
      .push fun _ => .next rfl
  | ret =>
    obtain rfl := hst (.inr (.inr (.inr rfl)))
    show Tracks _ (execRet s) (execRet (s.mapRegsStack g id))
    unfold execRet
    rcases s.pop_cases with ⟨hs, hp⟩ | ⟨below, v, hs, hp⟩
    · rw [hp, State.pop_of_nil (s := s.mapRegsStack g id) hs]
      exact .next rfl
    · rw [hp, State.pop_of_concat (s := s.mapRegsStack g id) hs]
      exact .next rfl
  | out a => exact .orRaise (State.val_mapRegsStack (hi a List.mem_cons_self)) fun _ _ => .next rfl
  | inp a => exact .orRaise rfl fun _ hd => .serveInput (hi a List.mem_cons_self) hd hsup
  | noop => exact .next rfl

end Tracks

/-- An operand that does not name register `k` overlooks a write to it. -/
theorem overlooks_set {o : Operand} {k : RegIndex} (ho : o ≠ .register k) (v : Word) :
    Overlooks (fun r => r.set k v) o := by
  rintro j rfl r
  have hne : k.val ≠ j.val := fun e => ho (congrArg Operand.register (Fin.ext e.symm))
  exact ⟨Vector.getElem_set_ne k.isLt j.isLt hne, fun w => Vector.set_comm v w hne⟩

theorem overlooks_id (o : Operand) : Overlooks id o := fun _ _ _ => ⟨rfl, fun _ => rfl⟩

/-- R32: an instruction that does not reach the stack leaves it as it was. -/
theorem exec_stack {i : Instr} (hi : ¬ ReachesStack i) {s t : State} (h : exec i s = .next t) : t.stack = s.stack := by
  cases exec_next h with
  | pushed a v n e _ _ => exact absurd (.inl ⟨a, e⟩) hi
  | popped a d below v n e _ _ _ => exact absurd (.inr (.inl ⟨a, e⟩)) hi
  | called a v w e _ => exact absurd (.inr (.inr (.inl ⟨a, e⟩))) hi
  | returned below w e _ => exact absurd (.inr (.inr (.inr e))) hi
  | served a d _ _ _ hserve => exact (serveInput_stack_status hserve).1
  | _ => simp

/-! ## What a step writes into cells (R31, R53) -/

/-- Every cell holds what it held, or a Word. -/
def CellsKeptOrWords (s t : State) : Prop := ∀ a, t.cellAt a = s.cellAt a ∨ (t.cellAt a).toNat ≤ 32767

theorem CellsKeptOrWords.of_mem_eq {s t : State} (h : t.mem = s.mem) : CellsKeptOrWords s t :=
  fun a => .inl (congrArg (Memory.read · a) h)

theorem CellsKeptOrWords.put {s : State} (hm : s.mem.wf) (d : Dest) (v : Word) : CellsKeptOrWords s (s.put d v) := by
  intro a
  cases d with
  | reg k => exact .inl rfl
  | cell b =>
    by_cases hab : a = b.toNat
    · subst hab
      rw [State.put_cellAt_self hm, Word.toCell_toNat]
      exact .inr (Nat.le_of_lt_succ v.isLt)
    · exact .inl (State.put_cellAt_ne s _ v a fun c hc => by cases hc; exact hab)

theorem CellsKeptOrWords.serveInput {s t : State} (hm : s.mem.wf) {d : Dest} {answers : List HostAnswer}
    (hsup : ∀ c, HostAnswer.command c ∉ answers) (h : serveInput d answers s = .next t) : CellsKeptOrWords s t := by
  obtain ⟨cmds, rest, rfl, -, hend⟩ := serveInput_next h
  obtain rfl : cmds = [] := by
    cases cmds with
    | nil => rfl
    | cons c cmds => exact absurd List.mem_cons_self (hsup c)
  rcases hend with ⟨-, rfl⟩ | ⟨b, r, -, rfl⟩ | ⟨r, -, rfl⟩ | ⟨r, -, rfl⟩
  · exact .of_mem_eq rfl
  · exact CellsKeptOrWords.put (s := { s with supply := r, request := none }) hm d _
  · exact .of_mem_eq rfl
  · exact .of_mem_eq rfl

theorem CellsKeptOrWords.exec {i : Instr} {s t : State} (hm : s.mem.wf) (hsup : NoCommands s)
    (h : exec i s = .next t) : CellsKeptOrWords s t := by
  cases exec_next h with
  | wrote a d v n _ _ _ => exact .put hm d v
  | stored a b ea v n _ _ _ => exact .put hm (.cell ea) v
  | popped a d below v n _ _ _ _ => exact CellsKeptOrWords.put (s := { s with stack := below }) hm d v
  | served a d _ _ _ hserve => exact .serveInput hm hsup hserve
  | _ => exact .of_mem_eq rfl

end Sys2Proof.Machine

namespace Sys2Proof

/-! ## Snapshots (R40, R43, R235): numbers in range survive the way into vectors and back -/

theorem map_toNat_map_ofNat {w : Nat} {l : List Nat} (h : ∀ x ∈ l, x < 2 ^ w) :
    (l.map (BitVec.ofNat w)).map BitVec.toNat = l := by
  rw [List.map_map]
  refine (List.map_congr_left fun x hx => ?_).trans (List.map_id l)
  exact Nat.mod_eq_of_lt (h x hx)

theorem map_ofNat_map_toNat {w : Nat} (l : List (BitVec w)) : (l.map BitVec.toNat).map (BitVec.ofNat w) = l := by
  simp [Function.comp_def]

theorem toNat_getD_map_ofNat {w : Nat} {l : List Nat} (h : ∀ x ∈ l, x < 2 ^ w) (a : Nat) :
    ((l.map (BitVec.ofNat w)).getD a 0#w).toNat = l.getD a 0 := by
  conv_rhs => rw [← map_toNat_map_ofNat h]
  exact (List.getD_map _ _ BitVec.toNat).symm

end Sys2Proof

namespace Sys2Proof.Machine

theorem Snapshot.inRange_iff (saved : Snapshot) :
    saved.inRange = true ↔ saved.memory.length ≤ 32768 ∧ (∀ c ∈ saved.memory, c < 65536) ∧
      saved.registers.length = 8 ∧ (∀ v ∈ saved.registers, v < 32768) ∧ (∀ v ∈ saved.stack, v < 32768) ∧
      saved.pc ≤ 32768 := by
  simp [Snapshot.inRange, and_assoc]

theorem Snapshot.fits_iff (saved : Snapshot) (s : State) :
    saved.fits s = true ↔ (∀ n, s.stackCapacity = some n → saved.stack.length ≤ n) ∧
      (s.status = .halted → saved.pc = 32768) := by
  unfold Snapshot.fits
  cases s.stackCapacity <;> simp [← Decidable.imp_iff_not_or]

section Load

variable (s : State) {saved : Snapshot}

theorem State.load_eq (saved : Snapshot) : s.load saved = { s with
    mem := (s.load saved).mem, regs := (s.load saved).regs
    stack := (s.load saved).stack, pc := (s.load saved).pc } := rfl

theorem State.load_cellAt (h : ∀ c ∈ saved.memory, c < 65536) (a : Nat) :
    ((s.load saved).cellAt a).toNat = saved.memory.getD a 0 := by
  show (Memory.read (Memory.ofCells 0 _) a).toNat = _
  rw [Memory.read_ofCells, if_pos (Nat.zero_le a), Nat.sub_zero]
  exact toNat_getD_map_ofNat h a

theorem State.load_mem_wf (h : saved.memory.length ≤ 32768) : (s.load saved).mem.wf :=
  Memory.wf_ofCells (by simpa using h)

theorem State.load_reg (k : RegIndex) : (s.load saved).reg k = BitVec.ofNat 15 (saved.registers.getD k.val 0) := by
  simp [State.load, State.reg]

theorem State.load_reg_toNat (h : ∀ v ∈ saved.registers, v < 32768) (k : RegIndex) :
    ((s.load saved).reg k).toNat = saved.registers.getD k.val 0 := by
  rw [State.load_reg, ← toNat_getD_map_ofNat (w := 15) h]
  simp

end Load

section Save

variable {s : State}

theorem State.save_getD_memory (a : Nat) (ha : a < 32768) : s.save.memory.getD a 0 = (s.cellAt a).toNat := by
  simp [State.save, ha]

theorem State.save_memory_length : s.save.memory.length = 32768 := by simp [State.save]

theorem State.save_memory_lt : ∀ c ∈ s.save.memory, c < 65536 := by
  simp only [State.save, List.forall_mem_map]
  exact fun a _ => (s.cellAt a).isLt

theorem State.save_registers_length : s.save.registers.length = 8 := by simp [State.save]

theorem State.save_registers_getD (k : RegIndex) : s.save.registers.getD k.val 0 = (s.reg k).toNat := by
  simp [State.save, State.reg]

theorem State.save_registers_lt : ∀ v ∈ s.save.registers, v < 32768 := by
  simp only [State.save, List.forall_mem_map]
  exact fun v _ => v.isLt

theorem State.save_stack_lt : ∀ v ∈ s.save.stack, v < 32768 := by
  simp only [State.save, List.forall_mem_map]
  exact fun v _ => v.isLt

/-- R40, R234: the snapshot of a machine whose `pc` is in range is in range. -/
theorem State.save_inRange (hpc : s.pc.toNat ≤ 32768) : s.save.inRange = true :=
  (Snapshot.inRange_iff _).2 ⟨save_memory_length.le, save_memory_lt, save_registers_length, save_registers_lt,
    save_stack_lt, hpc⟩

theorem State.save_fits (h : s.Inv) : s.save.fits s = true := by
  refine (Snapshot.fits_iff _ _).2 ⟨fun n hn => ?_, fun hh => ?_⟩
  · simpa [State.save] using h.stackFits n hn
  · simp [State.save, h.haltedAtSentinel hh]

theorem Memory.read_of_le {m : Memory} (hm : m.wf) {a : Nat} (ha : 32768 ≤ a) : m.read a = 0#16 := by
  induction m with
  | nil => rfl
  | cons p m ih =>
    obtain ⟨-, hp, -, hm'⟩ := (Memory.wf_cons _ _).1 hm
    rw [Memory.read_cons, if_neg (by omega), ih hm']

/-- Canonical memories that hold the same cells are equal data. -/
theorem State.mem_eq_of_cellAt {t u : State} (ht : t.mem.wf) (hu : u.mem.wf) (h : ∀ a, t.cellAt a = u.cellAt a) :
    t.mem = u.mem := Memory.ext_of_read ht hu h

theorem State.load_save_cellAt (hm : s.mem.wf) (a : Nat) : (s.load s.save).cellAt a = s.cellAt a := by
  refine BitVec.eq_of_toNat_eq ?_
  rw [State.load_cellAt s save_memory_lt]
  by_cases ha : a < 32768
  · exact save_getD_memory a ha
  · rw [List.getD_eq_default _ _ (by rw [save_memory_length]; omega)]
    rw [State.cellAt, Memory.read_of_le hm (by omega)]
    rfl

/-- R235: loading a machine's own snapshot gives the machine back. -/
theorem State.load_save (hm : s.mem.wf) : s.load s.save = s := by
  have hmem : (s.load s.save).mem = s.mem :=
    State.mem_eq_of_cellAt (State.load_mem_wf s save_memory_length.le) hm (load_save_cellAt hm)
  have hregs : (s.load s.save).regs = s.regs := Vector.ext fun k hk => by
    have hreg := State.load_reg s (saved := s.save) ⟨k, hk⟩
    rw [save_registers_getD, BitVec.ofNat_toNat, BitVec.setWidth_eq] at hreg
    exact hreg
  have hstack : (s.load s.save).stack = s.stack := map_ofNat_map_toNat s.stack
  have hpc : (s.load s.save).pc = s.pc := BitVec.eq_of_toNat_eq (Nat.mod_eq_of_lt s.pc.isLt)
  rw [State.load_eq, hmem, hregs, hstack, hpc]

end Save

/-! ## The sentinel (R27, R95 step 1) -/

theorem nextAction_sentinel {s : State} (hb : s.betweenInstructions = true) (hpc : s.pc = 32768#16) :
    nextAction s = .sentinel := by
  obtain ⟨hrun, hexit, hreq⟩ := s.betweenInstructions_iff.1 hb
  simp [nextAction, s.ended_eq_false_iff.2 ⟨hrun, hexit⟩, hreq, hpc]

end Sys2Proof.Machine

namespace Sys2Proof.Proofs

open Sys2Proof.Machine Sys2Proof.Statements

/-- Settles O44: every update a step is made of keeps the invariants; `step_next` and `ExecNext` list the steps. -/
theorem stepKeepsTheInvariants : Obligations.StepKeepsTheInvariants :=
  fun _ _ h ht => h.step ht

/-- Settles O42, by the next states of `ExecNext`: those with a write have a destination or are WMEM's. -/
theorem frameOfInstructionsThatStoreNothing : Obligations.FrameOfInstructionsThatStoreNothing := by
  intro i s t hdest hwmem h
  have hports : PortsUnchanged s s := ⟨rfl, rfl, rfl, rfl, rfl, rfl⟩
  cases exec_next h with
  | raised e => exact ⟨fun _ => rfl, fun _ => rfl, .inl rfl, .inl rfl, .inl (.inr ⟨_, rfl⟩), hports⟩
  | halted hi =>
    have hi : i = .halt ∨ i = .ret := hi.imp_right And.left
    exact ⟨fun _ => rfl, fun _ => rfl, .inl rfl, .inl rfl, .inr ⟨hi, rfl⟩, hports⟩
  | advanced n _ => exact ⟨fun _ => rfl, fun _ => rfl, .inl rfl, .inl rfl, .inl (.inl rfl), hports⟩
  | jumped w => exact ⟨fun _ => rfl, fun _ => rfl, .inl rfl, .inl rfl, .inl (.inl rfl), hports⟩
  | emitted a v n hi _ =>
    exact ⟨fun _ => rfl, fun _ => rfl, .inl rfl, .inr ⟨a, v, hi, rfl⟩, .inl (.inl rfl), hports⟩
  | pushed a v n hi _ _ =>
    exact ⟨fun _ => rfl, fun _ => rfl, .inr (.inl ⟨a, v, .inl hi, rfl⟩), .inl rfl, .inl (.inl rfl), hports⟩
  | called a v w hi _ =>
    exact ⟨fun _ => rfl, fun _ => rfl, .inr (.inl ⟨a, v, .inr hi, rfl⟩), .inl rfl, .inl (.inl rfl), hports⟩
  | returned below w hi hs =>
    have htop : below = s.stack.dropLast := by simp [hs]
    exact ⟨fun _ => rfl, fun _ => rfl, .inr (.inr ⟨hi, htop⟩), .inl rfl, .inl (.inl rfl), hports⟩
  | wrote a d v n hi _ _ => rw [hdest] at hi; cases hi
  | stored a b ea v n hi _ _ => exact absurd hi (hwmem a b)
  | popped a d below v n hi _ _ _ => subst hi; cases hdest
  | served a d _ hi _ _ => subst hi; cases hdest

/-- Settles O46: the one refusal of `step` itself is a `pc` above 32768, which the invariants exclude. -/
theorem everyStepCompletes : Obligations.EveryStepCompletes := by
  intro s h hsup
  unfold step
  rcases nextAction_cases s with ⟨-, ha⟩ | ⟨-, d, -, ha⟩ | ⟨-, -, ha⟩ | ⟨-, hpc, -⟩ | ⟨-, hpc, ha⟩
  · rw [ha]; exact ⟨_, rfl⟩
  · rw [ha]; exact serveInput_completes d hsup s
  · rw [ha]; exact ⟨_, rfl⟩
  · exact absurd h.pcInRange (Nat.not_le.2 hpc)
  · rcases State.fetch_cases hpc with ⟨i, -, hf, -⟩ | ⟨-, hf⟩ | ⟨hf, -⟩ <;> rw [ha, hf]
    · exact exec_completes i hsup
    · exact ⟨_, rfl⟩
    · exact ⟨_, rfl⟩

/-- Settles O49, by the ways a step ends. -/
theorem onlyThreeWaysToHalt : Obligations.OnlyThreeWaysToHalt := by
  intro s t hrun hstep hsucc
  have ht := t.successful_iff.1 hsucc
  rcases step_next hstep with ⟨-, rfl⟩ | ⟨-, d, -, hserve⟩ | ⟨-, hpc, rfl⟩ | ⟨-, -, e, -, rfl⟩ | ⟨-, i, hf, -, hexec⟩
  · rw [hrun] at ht; cases ht
  · exact absurd ht (serveInput_ne_halted hrun hserve)
  · exact ⟨rfl, .inl hpc⟩
  · cases ht
  · obtain ⟨hpc, rfl | ⟨rfl, hstack⟩⟩ := exec_halted (s := s.markStarted) hrun hexec ht
    · exact ⟨hpc, .inr (.inl hf)⟩
    · exact ⟨hpc, .inr (.inr ⟨hf, hstack⟩)⟩

/-- Settles O50: an ended state is a fixed point of the step. -/
theorem endedRunsStayAsTheyAre : Obligations.EndedRunsStayAsTheyAre :=
  fun s k h => run_of_fixed core (step_of_ended (s.ended_iff_outcome.2 h)) k

/-- Settles O51: `exec_stack`, and another stack commutes with an instruction that does not reach it. -/
theorem onlyFourInstructionsReachTheStack : Obligations.OnlyFourInstructionsReachTheStack := by
  intro i hpush hpop hcall hret
  have hi : ¬ ReachesStack i := by
    rintro (⟨a, e⟩ | ⟨a, e⟩ | ⟨a, e⟩ | e)
    · exact hpush a e
    · exact hpop a e
    · exact hcall a e
    · exact hret e
  refine ⟨fun s t h => exec_stack hi h, fun s other hsup => ?_⟩
  exact exec_mapRegsStack (g := id) (h := fun _ => other) (fun o _ => overlooks_id o) (absurd · hi) hsup

/-- Settles O52, by the ways a step ends. -/
theorem engineWritesOnlyWords : Obligations.EngineWritesOnlyWords := by
  intro s t a hm hsup hstep
  suffices CellsKeptOrWords s t from this a
  rcases step_next hstep with ⟨-, rfl⟩ | ⟨-, d, -, hserve⟩ | ⟨-, -, rfl⟩ | ⟨-, -, e, -, rfl⟩ | ⟨-, i, -, -, hexec⟩
  · exact .of_mem_eq rfl
  · exact .serveInput hm hsup hserve
  · exact .of_mem_eq rfl
  · exact .of_mem_eq rfl
  · exact CellsKeptOrWords.exec (s := s.markStarted) hm hsup hexec

/-- Settles O53: an operand that does not name a register overlooks a write to it. -/
theorem unnamedRegistersDoNotMatter : Obligations.UnnamedRegistersDoNotMatter := by
  intro i k v s hk hsup
  have hi : ∀ o ∈ i.operands, Overlooks (fun r => r.set k v) o := fun o ho =>
    overlooks_set (fun e => hk (e ▸ ho)) v
  exact exec_mapRegsStack (h := id) hi (fun _ => rfl) hsup

/-- Settles O57: the snapshot of a state that meets the invariants is accepted, and loading it is the identity. -/
theorem saveThenLoadIsTheIdentity : Obligations.SaveThenLoadIsTheIdentity := by
  intro s h hopen hreq
  refine ⟨?_, ?_⟩
  · simp only [debugPort, hopen, hreq]
    rfl
  · simp only [debugPort, hopen, hreq, debugCommand, debugLoadState, State.save_inRange h.pcInRange,
      State.save_fits h, State.load_save h.memCanonical]
    rfl

/-- Settles O58: numbers in range are read back from the loaded state as they stand in the snapshot. -/
theorem loadStateReplacesOrIsRefused : Obligations.LoadStateReplacesOrIsRefused := by
  intro s saved
  refine ⟨fun hin hfit => ?_, fun hout => ?_⟩
  · obtain ⟨hlen, hmem, -, hregs, hstack, hpc⟩ := saved.inRange_iff.1 hin
    have hdone : debugCommand (.loadState saved) s = (s.load saved, .done) := by
      simp [debugCommand, debugLoadState, hin, hfit]
    refine ⟨s.load saved, hdone, s.load_eq saved, s.load_cellAt hmem, s.load_reg_toNat hregs,
      map_toNat_map_ofNat hstack, ?_, s.load_mem_wf hlen⟩
    exact Nat.mod_eq_of_lt (by omega)
  · simp [debugCommand, debugLoadState, hout]

/-- Settles O8: at the sentinel there is no fetch (`nextAction_sentinel`), and halting leaves `pc` where it is. -/
theorem sentinelHalts : Obligations.SentinelHalts := by
  intro s hb hpc
  refine ⟨s.markStarted.halt, by rw [step, nextAction_sentinel hb hpc], ?_⟩
  rw [State.halt, Config.haltPc, ← hpc]
  rfl

/-- Settles O13, by the room on the stack and by its last entry. -/
theorem pushAndPop : Obligations.PushAndPop := by
  intro s v
  refine ⟨fun hcap => ?_, fun n hn hroom => ?_, fun n hn hfull go => ?_, State.pop_of_nil,
    fun _ => State.pop_of_concat⟩
  · exact State.push_of_room (by simp [hcap]) v
  · exact State.push_of_room (by simpa [hn] using hroom) v
  · rw [State.push_of_full hn hfull]
    rfl

/-- Settles O45: the reset memory and stack are empty, and nothing is halted, faulted or requested. -/
theorem resetMeetsTheInvariants : Obligations.ResetMeetsTheInvariants := State.reset_inv

/-- Settles O55: at reset cell 0 holds the opcode of HALT, so the first cycle fetches and executes it. -/
theorem resetValues : Obligations.ResetValues := by
  have hfetch : State.reset.fetch = .run .halt := by decide
  have hstep : step State.reset = exec .halt State.reset.markStarted := step_of_fetch (by decide) (by decide) hfetch
  refine ⟨by decide, fun a => Memory.read_nil a, rfl, rfl, rfl, rfl, _, hstep, rfl⟩

end Sys2Proof.Proofs

/-! The proofs of the family 20_memory: what a fetch depends on, the memory primitives and the canonical form, and the
frames of the instructions that write to a destination or to memory. -/

namespace Sys2Proof.Machine

/-! ## Reading and writing memory (R30, R52, R53) -/

/-- Two canonical memories are equal when they read alike in the address space: outside it both read 0. -/
theorem Memory.ext_of_read_lt {m n : Memory} (hm : m.wf) (hn : n.wf)
    (h : ∀ a, a < 32768 → m.read a = n.read a) : m = n := by
  refine Memory.ext_of_read hm hn fun a => ?_
  rcases Nat.lt_or_ge a 32768 with ha | ha
  · exact h a ha
  · rw [Memory.read_of_le hm ha, Memory.read_of_le hn ha]

theorem State.memRead_of_lt (s : State) {a : Nat} (ha : a < 32768) : s.memRead a = .ok (s.cellAt a) := if_pos ha

theorem State.memRead_of_le (s : State) {a : Nat} (ha : 32768 ≤ a) : s.memRead a = .error .memOutOfBounds :=
  if_neg (Nat.not_lt.2 ha)

theorem State.memWrite_of_lt (s : State) {a : Nat} (ha : a < 32768) (v : Word) :
    s.memWrite a v = .ok (s.setCell a (Word.toCell v)) := if_pos ha

theorem State.memWrite_of_le (s : State) {a : Nat} (ha : 32768 ≤ a) (v : Word) :
    s.memWrite a v = .error .memOutOfBounds := if_neg (Nat.not_lt.2 ha)

/-! ## The fetch and the debug port (R66, R230) -/

/-- R66: the fetch is a function of `pc` and of the four cells its window may show. -/
theorem State.fetch_congr {s t : State} (hpc : s.pc = t.pc)
    (h : ∀ n, n < 4 → s.cellAt (s.pc.toNat + n) = t.cellAt (s.pc.toNat + n)) : s.fetch = t.fetch := by
  have hcells : s.fetchCells = t.fetchCells := by
    rw [State.fetchCells, State.fetchCells, ← hpc]
    exact State.cellsFrom_congr h
  rw [State.fetch, State.fetch, hcells]

theorem State.portOpen_eq_false {s : State} (hstarted : s.started = true) (hb : s.betweenInstructions = true) :
    s.portOpen = false := by
  obtain ⟨hrun, hexit, hreq⟩ := s.betweenInstructions_iff.1 hb
  simp [State.portOpen, hstarted, s.ended_eq_false_iff.2 ⟨hrun, hexit⟩, hreq]

/-! ## What a write to a destination keeps (R54, R92) -/

open Statements

section Put

variable {a : Operand} {d : Dest} (s : State) (v : Word)

theorem State.put_registersKeptBut (ha : dst a = .ok d) : RegistersKeptBut a s (s.put d v) := by
  intro k hk
  rw [State.put_reg, if_neg]
  rintro rfl
  rcases dst_ok ha with ⟨_, -, hd⟩ | ⟨_, rfl, hd⟩ <;> cases hd
  exact hk rfl

theorem State.put_cellsKeptBut (ha : dst a = .ok d) : CellsKeptBut a s (s.put d v) := by
  intro adr hadr
  refine s.put_cellAt_ne d v adr ?_
  rintro w rfl
  rcases dst_ok ha with ⟨_, rfl, hd⟩ | ⟨_, -, hd⟩ <;> cases hd
  exact hadr w rfl

/-- R199: a byte goes to the destination of the IN, and to no other register or cell. -/
theorem State.tookByte_keptBut (ha : dst a = .ok d) (rest : List HostAnswer) (b : BitVec 8) :
    RegistersKeptBut a s (s.tookByte d rest b) ∧ CellsKeptBut a s (s.tookByte d rest b) :=
  ⟨State.put_registersKeptBut { s with supply := rest, request := none } _ ha,
    State.put_cellsKeptBut { s with supply := rest, request := none } _ ha⟩

end Put

theorem State.put_portsUnchanged (s : State) (d : Dest) (v : Word) : PortsUnchanged s (s.put d v) := by
  simp [PortsUnchanged]

theorem portsUnchanged_refl (s : State) : PortsUnchanged s s := ⟨rfl, rfl, rfl, rfl, rfl, rfl⟩

/-- R197: without debug commands the next answer alone decides how serving an IN ends. -/
theorem serveInput_next_of_noCommands {d : Dest} {answers : List HostAnswer} {s t : State}
    (hsup : ∀ c, HostAnswer.command c ∉ answers) (h : serveInput d answers s = .next t) :
    (answers = [] ∧ t = s.blocked d) ∨ (∃ b rest, answers = .byte b :: rest ∧ t = s.tookByte d rest b) ∨
    (∃ rest, answers = .failure :: rest ∧ t = s.tookFailure rest) ∨
    ∃ rest, answers = .exit :: rest ∧ t = s.tookExit rest := by
  obtain ⟨cmds, rest, rfl, -, hend⟩ := serveInput_next h
  cases cmds with
  | nil => exact hend
  | cons c cmds => exact absurd List.mem_cons_self (hsup c)

end Sys2Proof.Machine

namespace Sys2Proof.Proofs

open Sys2Proof.Machine Sys2Proof.Statements

/-- Settles O6: the fetch window is read from `pc` and the four cells alone (`State.fetch_congr`). -/
theorem fetchReadsTheCellsAsTheyStand : Obligations.FetchReadsTheCellsAsTheyStand :=
  fun _ _ hpc h => State.fetch_congr hpc h

/-- Settles O11, by the bounds test of the two primitives and `State.setCell_cellAt`. -/
theorem memReadAndMemWrite : Obligations.MemReadAndMemWrite := by
  intro s a v hm
  refine ⟨fun ha => ⟨s.memRead_of_lt ha, _, s.memWrite_of_lt ha v, rfl, fun b => ?_⟩,
    fun ha => ⟨fun go => ?_, fun go => ?_⟩⟩
  · exact State.setCell_cellAt hm a b (Word.toCell v)
  · rw [s.memRead_of_le ha]
    rfl
  · rw [s.memWrite_of_le ha]
    rfl

/-- Settles O12, by the laws of memory and `Memory.ext_of_read_lt`. -/
theorem canonicalMemoryLaws : Obligations.CanonicalMemoryLaws :=
  ⟨fun _ a b v hm => ⟨Memory.read_write hm.1 a b v, fun ha => Memory.wf_write hm ha v⟩,
    fun _ _ hm hn h => Memory.ext_of_read_lt hm hn h⟩

/-- Settles O40, by the next states of `ExecNext`: a destination instruction writes where its destination operand
points, and otherwise faults. -/
theorem frameOfInstructionsWithADestination : Obligations.FrameOfInstructionsWithADestination := by
  intro i a s t hdest hinp h
  have hports := portsUnchanged_refl s
  cases exec_next h with
  | raised e => exact ⟨fun _ _ => rfl, fun _ _ => rfl, .inl rfl, rfl, .inr ⟨_, rfl⟩, hports⟩
  | advanced n _ => exact ⟨fun _ _ => rfl, fun _ _ => rfl, .inl rfl, rfl, .inl rfl, hports⟩
  | jumped w => exact ⟨fun _ _ => rfl, fun _ _ => rfl, .inl rfl, rfl, .inl rfl, hports⟩
  | wrote b d v n hi ha _ =>
    obtain rfl : a = b := Option.some.inj (hdest.symm.trans hi)
    exact ⟨s.put_registersKeptBut v ha, s.put_cellsKeptBut v ha, .inl (s.put_stack d v), s.put_output d v,
      .inl (s.put_status d v), s.put_portsUnchanged d v⟩
  | popped b d below v n hi ha hs _ =>
    subst hi
    obtain rfl : b = a := Option.some.inj hdest
    have htop : below = s.stack.dropLast := by simp [hs]
    exact ⟨State.put_registersKeptBut { s with stack := below } v ha,
      State.put_cellsKeptBut { s with stack := below } v ha, .inr ⟨rfl, by simpa using htop⟩, by simp,
      .inl (by simp), State.put_portsUnchanged { s with stack := below } d v⟩
  | served b d _ hi _ _ =>
    subst hi
    exact absurd (congrArg Instr.inp (Option.some.inj hdest)) hinp
  | halted hi => rcases hi with rfl | ⟨rfl, -⟩ <;> cases hdest
  | emitted b v n hi _ => subst hi; cases hdest
  | stored b c ea v n hi _ _ => subst hi; cases hdest
  | pushed b v n hi _ _ => subst hi; cases hdest
  | called b v w hi _ => subst hi; cases hdest
  | returned below w hi _ => subst hi; cases hdest

/-- Settles O41, by the next states of `ExecNext`: WMEM stores at the value of `a`, and otherwise faults. -/
theorem frameOfWmem : Obligations.FrameOfWmem := by
  intro a b s t h
  have hports := portsUnchanged_refl s
  cases exec_next h with
  | raised e => exact ⟨fun _ => rfl, fun _ _ => rfl, rfl, rfl, .inr ⟨_, rfl⟩, hports⟩
  | advanced n _ => exact ⟨fun _ => rfl, fun _ _ => rfl, rfl, rfl, .inl rfl, hports⟩
  | jumped w => exact ⟨fun _ => rfl, fun _ _ => rfl, rfl, rfl, .inl rfl, hports⟩
  | stored a' b' ea v n hi ha _ =>
    cases hi
    refine ⟨fun _ => rfl, fun adr hadr => ?_, rfl, rfl, .inl rfl, hports⟩
    exact s.put_cellAt_ne (.cell ea) v adr fun w hw => by cases hw; exact hadr ea ha
  | halted hi => rcases hi with hi | ⟨hi, -⟩ <;> cases hi
  | emitted _ _ _ hi _ => cases hi
  | wrote _ _ _ _ hi _ _ => cases hi
  | pushed _ _ _ hi _ _ => cases hi
  | called _ _ _ hi _ => cases hi
  | popped _ _ _ _ _ hi _ _ _ => cases hi
  | returned _ _ hi _ => cases hi
  | served _ _ _ hi _ _ => cases hi

/-- Settles O43, by the destination's check and then by the next answer (`serveInput_next_of_noCommands`). -/
theorem frameOfIn : Obligations.FrameOfIn := by
  intro a s t hsup h
  rcases State.orRaise_next h with ⟨e, -, rfl⟩ | ⟨d, ha, hserve⟩
  · exact ⟨fun _ _ => rfl, fun _ _ => rfl, rfl, rfl, .inr ⟨_, rfl⟩, rfl, rfl, rfl, .inl rfl⟩
  rcases serveInput_next_of_noCommands hsup hserve with
    ⟨hs, rfl⟩ | ⟨b, rest, hs, rfl⟩ | ⟨rest, hs, rfl⟩ | ⟨rest, hs, rfl⟩
  · exact ⟨fun _ _ => rfl, fun _ _ => rfl, rfl, rfl, .inl rfl, rfl, rfl, rfl, .inl hs.symm⟩
  · obtain ⟨hregs, hcells⟩ := s.tookByte_keptBut ha rest b
    refine ⟨hregs, hcells, ?_, ?_, .inl ?_, ?_, ?_, ?_, .inr ?_⟩ <;> simp [State.tookByte, hs]
  · exact ⟨fun _ _ => rfl, fun _ _ => rfl, rfl, rfl, .inr ⟨_, rfl⟩, rfl, rfl, rfl, .inl hs.symm⟩
  · exact ⟨fun _ _ => rfl, fun _ _ => rfl, rfl, rfl, .inl rfl, rfl, rfl, rfl, .inr (by rw [hs]; rfl)⟩

/-- Settles O60: the mark is set, and between instructions neither the run has ended nor an IN is outstanding. -/
theorem portIsClosedWhileTheEngineWorks : Obligations.PortIsClosedWhileTheEngineWorks := by
  intro s c hstarted hb
  simp [debugPort, State.portOpen_eq_false hstarted hb]

end Sys2Proof.Proofs

/-! The proofs of the family 30_encoding: decoding and encoding are inverse, the instruction table agrees with the
instructions, and the three arms of the two operand roles. -/

namespace Sys2Proof

/-- R86, R88, R101: the row at an opcode tells the operand count and whether there is a destination. -/
theorem instructionTable_opcode (i : Instr) :
    ∃ row, instructionTable[i.opcode]? = some row ∧ row.arity = i.operands.length ∧
      row.aIsDest = i.destination?.isSome := by
  cases i <;> exact ⟨_, rfl, rfl, rfl⟩

/-- R88: a destination is always the first operand. -/
theorem Instr.operands_head?_of_destination? {i : Instr} {a : Operand} (h : i.destination? = some a) :
    i.operands.head? = some a := by
  cases i <;> cases h <;> rfl

end Sys2Proof

namespace Sys2Proof.Machine

/-- R91: what a write to a memory destination leaves of the cells. -/
theorem State.put_cell_cellAt {s : State} (hm : s.mem.wf) (a v : Word) (b : Nat) :
    (s.put (.cell a) v).cellAt b = if b = a.toNat then Word.toCell v else s.cellAt b :=
  State.setCell_cellAt hm a.toNat b (Word.toCell v)

end Sys2Proof.Machine

namespace Sys2Proof.Proofs

open Sys2Proof.Machine

/-- Settles O1, by the round trip of every constructor (`decode_encode`). -/
theorem decodeOfEncode : Obligations.DecodeOfEncode :=
  fun _ rest he => decode_encode he rest

/-- Settles O2, by what the decoder answers (`decode_instr`). -/
theorem decodedCellsAreTheEncoding : Obligations.DecodedCellsAreTheEncoding :=
  fun _ _ _ h => decode_instr h

/-- Settles O3, by running the decoder on each word. -/
theorem sampleWordsDecode : Obligations.SampleWordsDecode := by
  unfold Obligations.SampleWordsDecode
  decide

/-- Settles O4: the two columns are read off the table, and `instructionTable_opcode` is its agreement. -/
theorem tableAgreesWithInstructions : Obligations.TableAgreesWithInstructions := by
  refine ⟨rfl, rfl, fun i => ?_⟩
  obtain ⟨row, hrow, harity, hdest⟩ := instructionTable_opcode i
  refine ⟨row, hrow, harity, ?_, fun a ha => Instr.operands_head?_of_destination? ha⟩
  rw [hdest, Option.isSome_iff_ne_none]

/-- Settles O9, by the three classes of an operand cell. -/
theorem valueOperandArms : Obligations.ValueOperandArms := by
  intro s w
  refine ⟨fun hlow => ?_, fun hreg => ?_, fun hinvalid go => ?_⟩
  · rw [Operand.ofCell_low (by omega)]
    rfl
  · rw [Operand.ofCell_register hreg.1 (by omega)]
    rfl
  · rw [Operand.ofCell_invalid hinvalid]
    rfl

/-- Settles O10, by the three classes of an operand cell and what a write to each destination leaves. -/
theorem destinationOperandArms : Obligations.DestinationOperandArms := by
  intro s w v hm
  refine ⟨fun hlow => ?_, fun hreg hreg' => ?_, fun hinvalid go => ?_⟩
  · have haddr : (BitVec.ofNat 15 w.toNat).toNat = w.toNat := Nat.mod_eq_of_lt (by omega)
    rw [Operand.ofCell_low (by omega)]
    refine ⟨_, rfl, rfl, fun a => ?_⟩
    rw [State.put_cell_cellAt hm, haddr]
    rfl
  · rw [Operand.ofCell_register hreg (by omega)]
    refine ⟨_, rfl, rfl, fun k => ?_⟩
    rw [State.put_reg]
    simp [Fin.ext_iff, eq_comm]
  · rw [Operand.ofCell_invalid hinvalid]
    rfl

end Sys2Proof.Proofs

/-! The proofs of the family 40_system: the two instructions without operands that only touch the control state. -/

namespace Sys2Proof.Machine

/-- R120: HALT always completes. -/
@[simp] theorem exec_halt (s : State) : exec .halt s = .next s.halt := rfl

/-- R121: NOOP always completes. -/
@[simp] theorem exec_noop (s : State) : exec .noop s = .next (s.advance 1) := rfl

end Sys2Proof.Machine

namespace Sys2Proof.Proofs

open Sys2Proof.Machine

/-- Settles O14: HALT has no operand cell, and `State.halt` sets the status and the sentinel of D8 alone. -/
theorem haltEndsTheRun : Obligations.HaltEndsTheRun :=
  ⟨rfl, exec_halt⟩

/-- Settles O15: NOOP has no operand cell, and `State.advance` moves `pc` past its one cell alone. -/
theorem noopOnlyAdvances : Obligations.NoopOnlyAdvances :=
  ⟨rfl, exec_noop⟩

end Sys2Proof.Proofs

/-! The proofs of the family 41_move_stack: the fault of a fetch that runs past the top of memory, the shapes of
instructions that SET and PUSH share with others, and POP. -/

namespace Sys2Proof.Machine

open Statements

/-- R95 step 4, R213: the opcode is in the table, so the fetch is no InvalidOperation; and the instruction it would run
needs a cell that memory does not have. -/
theorem fetchFaults_of_arity {op : Cell} {n : Nat} (hop : (instructionTable[op.toNat]?).map TableRow.arity = some n) :
    FetchFaults op n := by
  intro s hb hpc hcell hout
  obtain ⟨row, hrow, rfl⟩ := Option.map_eq_some_iff.1 hop
  have hfetch : s.fetch = .fault .memOutOfBounds := by
    rcases State.fetch_cases hpc with ⟨i, rest, -, hcells, -, hfits⟩ | ⟨hinvalid, -⟩ | ⟨hf, -⟩
    · have hhead : s.cellAt s.pc.toNat = BitVec.ofNat 16 i.opcode :=
        (List.cons.inj ((s.cellsFrom_succ hpc 3).symm.trans hcells)).1
      obtain ⟨row', hrow', harity, -⟩ := instructionTable_opcode i
      rw [← hcell, hhead, i.opcode_toNat, hrow'] at hrow
      cases hrow
      rw [encode_length] at hfits
      omega
    · have hlt : op.toNat < 22 := (List.getElem?_eq_some_iff.1 hrow).1
      rw [hcell] at hinvalid
      omega
    · exact hf
  exact ⟨s.markStarted.raise .memOutOfBounds, by rw [step, nextAction_fetch hb hpc, hfetch], rfl⟩

/-- R26: an advance of a state whose `pc` a write to a destination has kept. -/
theorem State.put_advance (s : State) (d : Dest) (v : Word) (n : Nat) :
    (s.put d v).advance n = { s.put d v with pc := s.pc + BitVec.ofNat 16 n } := by
  rw [State.advance, State.put_pc]

/-! ## Instructions with one value operand, and with a destination and one value -/

/-- R90, R97: an instruction that first resolves its one operand as a value has the faults of `OneValueOperand`. -/
theorem oneValueOperand_of_orRaise {op : Cell} {mk : Operand → Instr} {go : State → Word → Result}
    (hencode : ∀ a, encode (mk a) = [op, a.toCell])
    (harity : (instructionTable[op.toNat]?).map TableRow.arity = some 1)
    (hexec : ∀ a s, exec (mk a) s = s.orRaise (s.val a) (go s)) : OneValueOperand op mk :=
  ⟨hencode, fetchFaults_of_arity harity, fun s raw => hexec (.invalid raw) s⟩

theorem unaryOp_invalid_value {f : Word → Except FaultKind Word} {a : Operand} {s : State} {d : Dest} {raw : Cell}
    (ha : dst a = .ok d) : unaryOp f a (.invalid raw) s = .next (s.raise (.invalidRegister raw)) := by
  rw [unaryOp, ha, State.orRaise_ok]
  rfl

theorem unaryOp_ok {f : Word → Except FaultKind Word} {a b : Operand} {s : State} {d : Dest} {u r : Word}
    (ha : dst a = .ok d) (hb : s.val b = .ok u) (hr : f u = .ok r) :
    unaryOp f a b s = .next ((s.put d r).advance 3) := by
  simp only [unaryOp, ha, hb, hr, State.orRaise_ok]

/-- An instruction of the shape `unaryOp`, whose function `g` gives every result that `f` states, meets
`DestinationAndValue`. -/
theorem destinationAndValue_of_unaryOp {op : Cell} {mk : Operand → Operand → Instr} {f : State → Word → Option Word}
    {g : State → Word → Except FaultKind Word} (hencode : ∀ a b, encode (mk a b) = [op, a.toCell, b.toCell])
    (harity : (instructionTable[op.toNat]?).map TableRow.arity = some 2)
    (hexec : ∀ a b s, exec (mk a b) s = unaryOp (g s) a b s) (hg : ∀ s u r, f s u = some r → g s u = .ok r) :
    DestinationAndValue op mk f := by
  refine ⟨hencode, fetchFaults_of_arity harity, fun s raw b => hexec (.invalid raw) b s,
    fun s a d raw ha => ?_, fun s a b d u r ha hb hr => ?_⟩
  · rw [hexec, unaryOp_invalid_value ha]
  · rw [hexec, unaryOp_ok ha hb (hg s u r hr), State.put_advance]

/-! ## SET, PUSH and POP (R130 to R132) -/

theorem exec_set (a b : Operand) (s : State) : exec (.set a b) s = unaryOp .ok a b s := rfl

theorem exec_push (a : Operand) (s : State) : exec (.push a) s =
    s.orRaise (s.val a) fun v => s.orRaise (s.push v) fun t => .next (t.advance 2) := rfl

theorem exec_push_of_room {s : State} {a : Operand} {v : Word} (ha : s.val a = .ok v)
    (room : ∀ n, s.stackCapacity = some n → s.stack.length < n) :
    exec (.push a) s = .next (State.advance { s with stack := s.stack ++ [v] } 2) := by
  rw [exec_push, ha, State.orRaise_ok, State.push_of_room room, State.orRaise_ok]

theorem exec_push_of_full {s : State} {a : Operand} {v : Word} (ha : s.val a = .ok v) {n : Nat}
    (hn : s.stackCapacity = some n) (hfull : n ≤ s.stack.length) :
    exec (.push a) s = .next (s.raise .stackOverflow) := by
  rw [exec_push, ha, State.orRaise_ok, State.push_of_full hn hfull, State.orRaise_error]

theorem exec_pop_of_nil {s : State} {a : Operand} {d : Dest} (ha : dst a = .ok d) (hs : s.stack = []) :
    exec (.pop a) s = .next (s.raise .popFromEmptyStack) := by
  rw [exec, execPop, ha, State.orRaise_ok, State.pop_of_nil hs]

theorem exec_pop_of_concat {s : State} {a : Operand} {d : Dest} (ha : dst a = .ok d) {below : List Word} {v : Word}
    (hs : s.stack = below ++ [v]) :
    exec (.pop a) s = .next ((State.put { s with stack := below } d v).advance 2) := by
  rw [exec, execPop, ha, State.orRaise_ok, State.pop_of_concat hs]

end Sys2Proof.Machine

namespace Sys2Proof.Proofs

open Sys2Proof.Machine

/-- Settles O16: SET is the `unaryOp` whose function is the identity and never fails. -/
theorem setCopiesTheValue : Obligations.SetCopiesTheValue :=
  destinationAndValue_of_unaryOp (fun _ _ => rfl) rfl exec_set fun _ _ _ hr => congrArg Except.ok (Option.some.inj hr)

/-- Settles O17, by the room on the stack; that a full finite stack overflows is the spec's own decision D15. -/
theorem pushAppendsTheValue : Obligations.PushAppendsTheValue :=
  ⟨oneValueOperand_of_orRaise (fun _ => rfl) rfl exec_push, fun _ _ _ hv =>
    ⟨exec_push_of_room hv, fun _ => exec_push_of_full hv⟩⟩

/-- Settles O18, by the destination operand first and then by the last entry of the stack. -/
theorem popMovesTheTop : Obligations.PopMovesTheTop := by
  refine ⟨fun _ => rfl, fetchFaults_of_arity rfl, fun _ _ => rfl, fun s a d ha =>
    ⟨exec_pop_of_nil ha, fun below v hs => ?_⟩⟩
  rw [exec_pop_of_concat ha hs, State.put_advance]

end Sys2Proof.Proofs

/-! The proofs of the family 42_compare: the shape of an instruction with a destination and two values, and the two
comparisons. -/

namespace Sys2Proof.Machine

open Statements

/-! ## Instructions with a destination and two values -/

theorem binaryOp_invalid_left {f : Word → Word → Except FaultKind Word} {a c : Operand} {s : State} {d : Dest}
    {raw : Cell} (ha : dst a = .ok d) : binaryOp f a (.invalid raw) c s = .next (s.raise (.invalidRegister raw)) := by
  rw [binaryOp, ha, State.orRaise_ok]
  rfl

theorem binaryOp_invalid_right {f : Word → Word → Except FaultKind Word} {a b : Operand} {s : State} {d : Dest}
    {u : Word} {raw : Cell} (ha : dst a = .ok d) (hb : s.val b = .ok u) :
    binaryOp f a b (.invalid raw) s = .next (s.raise (.invalidRegister raw)) := by
  rw [binaryOp, ha, State.orRaise_ok, hb, State.orRaise_ok]
  rfl

theorem binaryOp_ok {f : Word → Word → Except FaultKind Word} {a b c : Operand} {s : State} {d : Dest} {u v r : Word}
    (ha : dst a = .ok d) (hb : s.val b = .ok u) (hc : s.val c = .ok v) (hr : f u v = .ok r) :
    binaryOp f a b c s = .next ((s.put d r).advance 4) := by
  simp only [binaryOp, ha, hb, hc, hr, State.orRaise_ok]

/-- An instruction of the shape `binaryOp`, whose function `g` gives every result that `f` states, meets
`DestinationAndTwoValues`. -/
theorem destinationAndTwoValues_of_binaryOp {op : Cell} {mk : Operand → Operand → Operand → Instr}
    {f : Word → Word → Option Word} {g : Word → Word → Except FaultKind Word}
    (hencode : ∀ a b c, encode (mk a b c) = [op, a.toCell, b.toCell, c.toCell])
    (harity : (instructionTable[op.toNat]?).map TableRow.arity = some 3)
    (hexec : ∀ a b c s, exec (mk a b c) s = binaryOp g a b c s) (hg : ∀ u v r, f u v = some r → g u v = .ok r) :
    DestinationAndTwoValues op mk f := by
  refine ⟨hencode, fetchFaults_of_arity harity, fun s raw b c => hexec (.invalid raw) b c s,
    fun s a d raw c ha => ?_, fun s a b d u raw ha hb => ?_, fun s a b c d u v r ha hb hc hr => ?_⟩
  · rw [hexec, binaryOp_invalid_left ha]
  · rw [hexec, binaryOp_invalid_right ha hb]
  · rw [hexec, binaryOp_ok ha hb hc (hg u v r hr), State.put_advance]

/-! ## EQ and GT (R140, R141) -/

theorem boolWord_decide (p : Prop) [Decidable p] : boolWord (decide p) = if p then 1#15 else 0#15 := by
  simp only [boolWord, decide_eq_true_eq]

theorem aluEq_eq_ite (u v : Word) : aluEq u v = if u = v then 1#15 else 0#15 := boolWord_decide _

theorem aluGt_eq_ite (u v : Word) : aluGt u v = if u.toNat > v.toNat then 1#15 else 0#15 := boolWord_decide _

theorem exec_eq (a b c : Operand) (s : State) : exec (.eq a b c) s = binaryOp (fun u v => .ok (aluEq u v)) a b c s :=
  rfl

theorem exec_gt (a b c : Operand) (s : State) : exec (.gt a b c) s = binaryOp (fun u v => .ok (aluGt u v)) a b c s :=
  rfl

end Sys2Proof.Machine

namespace Sys2Proof.Proofs

open Sys2Proof.Machine

/-- Settles O19: EQ is the `binaryOp` of `aluEq`, which has a result for all values (`aluEq_eq_ite`). -/
theorem eqWritesOneOrZero : Obligations.EqWritesOneOrZero :=
  destinationAndTwoValues_of_binaryOp (fun _ _ _ => rfl) rfl exec_eq fun u v _ hr =>
    congrArg Except.ok ((aluEq_eq_ite u v).trans (Option.some.inj hr))

/-- Settles O20: GT is the `binaryOp` of `aluGt`, which compares the values as natural numbers (`aluGt_eq_ite`). -/
theorem gtComparesUnsigned : Obligations.GtComparesUnsigned :=
  destinationAndTwoValues_of_binaryOp (fun _ _ _ => rfl) rfl exec_gt fun u v _ hr =>
    congrArg Except.ok ((aluGt_eq_ite u v).trans (Option.some.inj hr))

end Sys2Proof.Proofs

/-! The proofs of the family 43_control: the shape of an instruction with two values, where a conditional jump goes,
and how CALL and RET use the stack. -/

namespace Sys2Proof.Machine

open Statements

/-! ## Instructions with two value operands, and the jumps (R150 to R152) -/

/-- R90, R95 step 5, R97: an instruction that first resolves its two operands as values, in order, has the faults of
`TwoValueOperands`. -/
theorem twoValueOperands_of_orRaise {op : Cell} {mk : Operand → Operand → Instr} {go : State → Word → Word → Result}
    (hencode : ∀ a b, encode (mk a b) = [op, a.toCell, b.toCell])
    (harity : (instructionTable[op.toNat]?).map TableRow.arity = some 2)
    (hexec : ∀ a b s, exec (mk a b) s = s.orRaise (s.val a) fun u => s.orRaise (s.val b) (go s u)) :
    TwoValueOperands op mk := by
  refine ⟨hencode, fetchFaults_of_arity harity, fun s raw b => hexec (.invalid raw) b s, fun s a u raw ha => ?_⟩
  rw [hexec, ha, State.orRaise_ok]
  rfl

theorem isNonzero_iff (u : Word) : isNonzero u = true ↔ u.toNat ≠ 0 := by
  simp [isNonzero, ← BitVec.toNat_inj]

/-- R151, R152: a choice between two places to go on changes `pc` alone. -/
theorem State.ite_setPc (s : State) (p : Prop) [Decidable p] (x y : Pc) :
    (if p then ({ s with pc := x } : State) else { s with pc := y }) = { s with pc := if p then x else y } :=
  (apply_ite (fun pc => ({ s with pc := pc } : State)) p x y).symm

theorem exec_jmp (a : Operand) (s : State) :
    exec (.jmp a) s = s.orRaise (s.val a) fun t => .next (s.jump t) := rfl

theorem exec_jt (a b : Operand) (s : State) : exec (.jt a b) s =
    s.orRaise (s.val a) fun u => s.orRaise (s.val b) fun t =>
      .next (if isNonzero u then s.jump t else s.advance 3) := rfl

theorem exec_jf (a b : Operand) (s : State) : exec (.jf a b) s =
    s.orRaise (s.val a) fun u => s.orRaise (s.val b) fun t =>
      .next (if isNonzero u then s.advance 3 else s.jump t) := rfl

/-! ## CALL and RET (R153, R154) -/

theorem returnAddress_of_le {s : State} (h : s.pc.toNat ≤ 32765) :
    returnAddress s = .ok (BitVec.ofNat 15 (s.pc.toNat + 2)) :=
  if_pos (by simp only [Config.wordMax]; omega)

/-- D11: the cell after a CALL in the last two cells of memory is the sentinel, which is no Word. -/
theorem returnAddress_of_top {s : State} (h : s.pc = 32766#16) :
    returnAddress s = .error (.wordRange 32768#16) := by
  rw [returnAddress, h]
  rfl

theorem exec_call (a : Operand) (s : State) : exec (.call a) s =
    s.orRaise (s.val a) fun t => s.orRaise (returnAddress s) fun r => s.orRaise (s.push r) fun u =>
      .next (u.jump t) := rfl

section Call

variable {s : State} {a : Operand} {t : Word} (ha : s.val a = .ok t)
include ha

theorem exec_call_of_top (hpc : s.pc = 32766#16) :
    exec (.call a) s = .next (s.raise (.wordRange 32768#16)) := by
  rw [exec_call, ha, State.orRaise_ok, returnAddress_of_top hpc, State.orRaise_error]

theorem exec_call_of_room (hpc : s.pc.toNat ≤ 32765)
    (room : ∀ n, s.stackCapacity = some n → s.stack.length < n) :
    exec (.call a) s =
      .next (State.jump { s with stack := s.stack ++ [BitVec.ofNat 15 (s.pc.toNat + 2)] } t) := by
  rw [exec_call, ha, State.orRaise_ok, returnAddress_of_le hpc, State.orRaise_ok, State.push_of_room room,
    State.orRaise_ok]

theorem exec_call_of_full (hpc : s.pc.toNat ≤ 32765) {n : Nat} (hn : s.stackCapacity = some n)
    (hfull : n ≤ s.stack.length) : exec (.call a) s = .next (s.raise .stackOverflow) := by
  rw [exec_call, ha, State.orRaise_ok, returnAddress_of_le hpc, State.orRaise_ok, State.push_of_full hn hfull,
    State.orRaise_error]

end Call

theorem exec_ret_of_nil {s : State} (hs : s.stack = []) : exec .ret s = .next s.halt := by
  rw [exec, execRet, State.pop_of_nil hs]

theorem exec_ret_of_concat {s : State} {below : List Word} {t : Word} (hs : s.stack = below ++ [t]) :
    exec .ret s = .next (State.jump { s with stack := below } t) := by
  rw [exec, execRet, State.pop_of_concat hs]

end Sys2Proof.Machine

namespace Sys2Proof.Proofs

open Sys2Proof.Machine

/-- Settles O21: the one operand is resolved as a value, and `State.jump` sets `pc` to it alone. -/
theorem jmpSetsThePc : Obligations.JmpSetsThePc := by
  refine ⟨oneValueOperand_of_orRaise (fun _ => rfl) rfl exec_jmp, fun s a t ha => ?_⟩
  rw [exec_jmp, ha, State.orRaise_ok]
  rfl

/-- Settles O22: both operands are resolved before the test (R96), and the test chooses between two values of `pc`. -/
theorem jtJumpsOnNonzero : Obligations.JtJumpsOnNonzero := by
  refine ⟨twoValueOperands_of_orRaise (fun _ _ => rfl) rfl exec_jt, fun s a b u t ha hb => ?_⟩
  simp only [exec_jt, ha, hb, State.orRaise_ok, isNonzero_iff]
  exact congrArg _ (s.ite_setPc _ _ _)

/-- Settles O23: as JT, with the opposite test. -/
theorem jfJumpsOnZero : Obligations.JfJumpsOnZero := by
  refine ⟨twoValueOperands_of_orRaise (fun _ _ => rfl) rfl exec_jf, fun s a b u t ha hb => ?_⟩
  simp only [exec_jf, ha, hb, State.orRaise_ok, isNonzero_iff, ite_not]
  exact congrArg _ (s.ite_setPc _ _ _)

/-- Settles O32: first the return address must be a Word (D11), then the stack must have room (D15). -/
theorem callPushesTheReturnAddress : Obligations.CallPushesTheReturnAddress :=
  ⟨oneValueOperand_of_orRaise (fun _ => rfl) rfl exec_call, fun _ _ _ ha =>
    ⟨exec_call_of_top ha, fun hpc => ⟨exec_call_of_room ha hpc, fun _ => exec_call_of_full ha hpc⟩⟩⟩

/-- Settles O33, by the last entry of the stack; on the empty stack `State.halt` sets the sentinel of D8. -/
theorem retReturnsOrHalts : Obligations.RetReturnsOrHalts :=
  ⟨rfl, fun _ => ⟨exec_ret_of_nil, fun _ _ => exec_ret_of_concat⟩⟩

end Sys2Proof.Proofs

/-! The proofs of the family 44_alu: each function of the ALU as an operation on Words, the identities that follow from
the ring of integers modulo 2^15, and the six instructions. -/

namespace Sys2Proof.Machine

open Statements

/-! ## The functions of the ALU as operations on Words (R171 to R173) -/

/-- R171: to reduce modulo 32768 is to keep the low 15 bits. -/
theorem reduce_eq_ofNat (n : Nat) : reduce n = BitVec.ofNat 15 n :=
  BitVec.eq_of_toNat_eq (by simp [reduce])

theorem reduce_toNat (u : Word) : reduce u.toNat = u := by
  rw [reduce_eq_ofNat, BitVec.ofNat_toNat, BitVec.setWidth_eq]

theorem aluAdd_eq_add (u v : Word) : aluAdd u v = u + v := by
  rw [aluAdd, reduce_eq_ofNat, BitVec.add_def]

theorem aluMult_eq_mul (u v : Word) : aluMult u v = u * v := by
  simp only [aluMult, reduce_eq_ofNat, BitVec.ofNat_mul, BitVec.ofNat_toNat, BitVec.setWidth_eq]

theorem aluNot_eq_not (u : Word) : aluNot u = ~~~u := by
  rw [aluNot, ← reduce_toNat (~~~u), BitVec.toNat_not]

theorem aluAnd_eq_ofNat (u v : Word) : aluAnd u v = BitVec.ofNat 15 (u.toNat &&& v.toNat) := by
  rw [← BitVec.toNat_and, BitVec.ofNat_toNat, BitVec.setWidth_eq, aluAnd]

theorem aluOr_eq_ofNat (u v : Word) : aluOr u v = BitVec.ofNat 15 (u.toNat ||| v.toNat) := by
  rw [← BitVec.toNat_or, BitVec.ofNat_toNat, BitVec.setWidth_eq, aluOr]

theorem aluRem_zero (u : Word) : aluRem u 0#15 = .error .divideByZero := rfl

theorem aluRem_of_ne_zero (u : Word) {v : Word} (hv : v ≠ 0#15) : aluRem u v = .ok (u % v) := by
  rw [aluRem, if_neg hv, ← BitVec.toNat_umod, reduce_toNat]

/-! ## The identities of R174 that are not the ring's own -/

theorem aluAdd_aluNot_one (u : Word) : aluAdd u (aluAdd (aluNot u) 1#15) = 0#15 := by
  rw [aluAdd_eq_add, aluAdd_eq_add, aluNot_eq_not, ← BitVec.neg_eq_not_add, BitVec.add_right_neg]

theorem aluRem_toNat_lt {u v r : Word} (h : aluRem u v = .ok r) : r.toNat < v.toNat := by
  by_cases hv : v = 0#15
  · rw [hv, aluRem_zero] at h
    cases h
  · rw [aluRem_of_ne_zero u hv] at h
    cases h
    exact BitVec.umod_lt u ((BitVec.pos_iff_ne_zero v).2 hv)

theorem aluRem_of_lt {u v : Word} (h : u.toNat < v.toNat) : aluRem u v = .ok u := by
  have hv : v ≠ 0#15 := (BitVec.pos_iff_ne_zero v).1 (Nat.zero_lt_of_lt h)
  rw [aluRem_of_ne_zero u hv, BitVec.umod_eq_of_lt h]

/-! ## The six instructions (R165 to R170) -/

theorem exec_add (a b c : Operand) (s : State) :
    exec (.add a b c) s = binaryOp (fun u v => .ok (aluAdd u v)) a b c s := rfl

theorem exec_mult (a b c : Operand) (s : State) :
    exec (.mult a b c) s = binaryOp (fun u v => .ok (aluMult u v)) a b c s := rfl

theorem exec_mod (a b c : Operand) (s : State) : exec (.mod a b c) s = binaryOp aluRem a b c s := rfl

theorem exec_and (a b c : Operand) (s : State) :
    exec (.and a b c) s = binaryOp (fun u v => .ok (aluAnd u v)) a b c s := rfl

theorem exec_or (a b c : Operand) (s : State) :
    exec (.or a b c) s = binaryOp (fun u v => .ok (aluOr u v)) a b c s := rfl

theorem exec_not (a b : Operand) (s : State) : exec (.not a b) s = unaryOp (fun u => .ok (aluNot u)) a b s := rfl

theorem binaryOp_error {f : Word → Word → Except FaultKind Word} {a b c : Operand} {s : State} {d : Dest} {u v : Word}
    {e : FaultKind} (ha : dst a = .ok d) (hb : s.val b = .ok u) (hc : s.val c = .ok v) (he : f u v = .error e) :
    binaryOp f a b c s = .next (s.raise e) := by
  simp only [binaryOp, ha, hb, hc, he, State.orRaise_ok, State.orRaise_error]

/-- An instruction of the shape `binaryOp`, whose function has the result `f` for all values and never faults. -/
theorem destinationAndTwoValues_of_total {op : Cell} {mk : Operand → Operand → Operand → Instr}
    {f g : Word → Word → Word}
    (hencode : ∀ a b c, encode (mk a b c) = [op, a.toCell, b.toCell, c.toCell])
    (harity : (instructionTable[op.toNat]?).map TableRow.arity = some 3)
    (hexec : ∀ a b c s, exec (mk a b c) s = binaryOp (fun u v => .ok (g u v)) a b c s) (hg : ∀ u v, g u v = f u v) :
    DestinationAndTwoValues op mk (fun u v => some (f u v)) :=
  destinationAndTwoValues_of_binaryOp hencode harity hexec fun u v _ hr =>
    congrArg Except.ok ((hg u v).trans (Option.some.inj hr))

end Sys2Proof.Machine

namespace Sys2Proof.Proofs

open Sys2Proof.Machine

/-- Settles O54: ADD, MULT and NOT are sum, product and complement of `BitVec 15`, whose laws are the library's; the
inverse and the remainder have lemmas of their own. -/
theorem aluIdentities : Obligations.AluIdentities := by
  intro u v w
  refine ⟨?addComm, ?addAssoc, ?multComm, ?multAssoc, ?distrib, ?addZero, ?multOne, ?multZero, aluAdd_aluNot_one u,
    ?notNot, ?andNot, ?orNot, fun _ => aluRem_toNat_lt, aluRem_of_lt⟩
  case addComm => simp only [aluAdd_eq_add, BitVec.add_comm]
  case addAssoc => simp only [aluAdd_eq_add, BitVec.add_assoc]
  case multComm => simp only [aluMult_eq_mul, BitVec.mul_comm]
  case multAssoc => simp only [aluMult_eq_mul, BitVec.mul_assoc]
  case distrib => simp only [aluMult_eq_mul, aluAdd_eq_add, BitVec.mul_add]
  case addZero => rw [aluAdd_eq_add, BitVec.add_zero]
  case multOne => rw [aluMult_eq_mul, BitVec.mul_one]
  case multZero =>
    rw [aluMult_eq_mul]
    exact BitVec.mul_zero
  case notNot => rw [aluNot_eq_not, aluNot_eq_not, BitVec.not_not]
  case andNot =>
    rw [aluNot_eq_not]
    exact BitVec.and_not_self u
  case orNot =>
    rw [aluNot_eq_not]
    exact BitVec.or_not_self u

/-- Settles O24: ADD is the `binaryOp` of `aluAdd`, which is the reduced sum by definition. -/
theorem addReducesTheSum : Obligations.AddReducesTheSum :=
  destinationAndTwoValues_of_total (fun _ _ _ => rfl) rfl exec_add fun _ _ => rfl

/-- Settles O25: MULT is the `binaryOp` of `aluMult`, which is the reduced exact product by definition. -/
theorem multReducesTheProduct : Obligations.MultReducesTheProduct :=
  destinationAndTwoValues_of_total (fun _ _ _ => rfl) rfl exec_mult fun _ _ => rfl

/-- Settles O26, by whether the divisor is 0; the fault there is the spec's own decision D9. -/
theorem modLeavesTheRemainder : Obligations.ModLeavesTheRemainder := by
  refine ⟨destinationAndTwoValues_of_binaryOp (fun _ _ _ => rfl) rfl exec_mod fun u v r hr => ?_,
    fun s a b c d u ha hb hc => ?_⟩
  · obtain ⟨hv, rfl⟩ : v.toNat ≠ 0 ∧ BitVec.ofNat 15 (u.toNat % v.toNat) = r := by simpa using hr
    rw [aluRem_of_ne_zero u fun h => hv (congrArg BitVec.toNat h), ← BitVec.toNat_umod, BitVec.ofNat_toNat,
      BitVec.setWidth_eq]
  · rw [exec_mod, binaryOp_error ha hb hc (aluRem_zero u)]

/-- Settles O27: AND is the `binaryOp` of `aluAnd`, on Words as on their numbers (`aluAnd_eq_ofNat`). -/
theorem andIsBitwise : Obligations.AndIsBitwise :=
  destinationAndTwoValues_of_total (fun _ _ _ => rfl) rfl exec_and aluAnd_eq_ofNat

/-- Settles O28: OR is the `binaryOp` of `aluOr`, on Words as on their numbers (`aluOr_eq_ofNat`). -/
theorem orIsBitwise : Obligations.OrIsBitwise :=
  destinationAndTwoValues_of_total (fun _ _ _ => rfl) rfl exec_or aluOr_eq_ofNat

/-- Settles O29: NOT is the `unaryOp` of `aluNot`; a `BitVec.ofNat 15` is reduced modulo 32768 already
(`reduce_eq_ofNat`). -/
theorem notComplementsFifteenBits : Obligations.NotComplementsFifteenBits :=
  destinationAndValue_of_unaryOp (fun _ _ => rfl) rfl exec_not fun _ _ _ hr =>
    congrArg Except.ok ((reduce_eq_ofNat _).trans (Option.some.inj hr))

end Sys2Proof.Proofs

/-! The proofs of the family 45_memory_access: when a load has a result, and the store of a Word to the cell a Word
addresses. -/

namespace Sys2Proof.Machine

/-! ## RMEM and WMEM (R185, R186) -/

/-- D10: a cell above 32767 holds no Word. -/
theorem loadWord_of_not_word {s : State} {ea : Word} (h : 32767 < (s.cellAt ea.toNat).toNat) :
    loadWord s ea = .error (.wordRange (s.cellAt ea.toNat)) := by
  rw [loadWord_eq, if_pos h]

theorem loadWord_of_word {s : State} {ea : Word} (h : ¬ 32767 < (s.cellAt ea.toNat).toNat) :
    loadWord s ea = .ok (BitVec.ofNat 15 (s.cellAt ea.toNat).toNat) := by
  rw [loadWord_eq, if_neg h]

theorem unaryOp_error {f : Word → Except FaultKind Word} {a b : Operand} {s : State} {d : Dest} {u : Word}
    {e : FaultKind} (ha : dst a = .ok d) (hb : s.val b = .ok u) (he : f u = .error e) :
    unaryOp f a b s = .next (s.raise e) := by
  simp only [unaryOp, ha, hb, he, State.orRaise_ok, State.orRaise_error]

theorem exec_rmem (a b : Operand) (s : State) : exec (.rmem a b) s = unaryOp (loadWord s) a b s := rfl

theorem exec_wmem (a b : Operand) (s : State) : exec (.wmem a b) s =
    s.orRaise (s.val a) fun ea => s.orRaise (s.val b) fun v => s.orRaise (s.memWrite ea.toNat v) fun t =>
      .next (t.advance 3) := rfl

/-- R55, R186: the address is a Word, so the store itself cannot fault. -/
theorem exec_wmem_of_values {s : State} {a b : Operand} {ea v : Word} (ha : s.val a = .ok ea) (hb : s.val b = .ok v) :
    exec (.wmem a b) s = .next ((s.setCell ea.toNat (Word.toCell v)).advance 3) := by
  rw [exec_wmem, ha, State.orRaise_ok, hb, State.orRaise_ok, State.memWrite_word, State.orRaise_ok]

end Sys2Proof.Machine

namespace Sys2Proof.Proofs

open Sys2Proof.Machine

/-- Settles O30: RMEM is the `unaryOp` of `loadWord`, by whether the addressed cell holds a Word; the fault where it
holds none is the spec's own decision D10. -/
theorem rmemLoadsAWord : Obligations.RmemLoadsAWord := by
  refine ⟨destinationAndValue_of_unaryOp (fun _ _ => rfl) rfl exec_rmem fun s ea r hr => ?_,
    fun s a b d ea ha hb hcell => ?_⟩
  · obtain ⟨hcell, hr⟩ := Option.ite_none_left_eq_some.1 hr
    rw [loadWord_of_word hcell, Option.some.inj hr]
  · rw [exec_rmem, unaryOp_error ha hb (loadWord_of_not_word hcell)]

/-- Settles O31: the addressed cell, and no other, takes the value (`State.setCell_cellAt`). -/
theorem wmemStoresTheValue : Obligations.WmemStoresTheValue :=
  ⟨twoValueOperands_of_orRaise (fun _ _ => rfl) rfl exec_wmem, fun _ _ _ _ _ hm ha hb =>
    ⟨_, exec_wmem_of_values ha hb, rfl, fun adr => State.setCell_cellAt hm _ adr _⟩⟩

end Sys2Proof.Proofs

/-! The proofs of the family 46_io: OUT, and an IN by the answers of the host: what each answer does, and that an IN
that waits is served later as it would have been at once. -/

namespace Sys2Proof.Machine

/-! ## OUT (R196) -/

theorem exec_out (a : Operand) (s : State) :
    exec (.out a) s = s.orRaise (s.val a) fun v => .next ((s.emit v).advance 2) := rfl

/-! ## Serving an IN (R197, R199) -/

theorem State.tookByte_eq (s : State) (d : Dest) (rest : List HostAnswer) (b : BitVec 8) :
    s.tookByte d rest b =
      { ({ s with supply := rest, request := none } : State).put d (BitVec.ofNat 15 b.toNat) with
        pc := s.pc + 2#16 } :=
  State.put_advance { s with supply := rest, request := none } d _ 2

/-- R215: the supply a failure leaves is the one it was found in. -/
theorem State.tookFailure_of_supply {s : State} {rest : List HostAnswer} (hs : s.supply = .failure :: rest) :
    s.tookFailure rest = ({ s with request := none } : State).raise .readInputErr := by
  rw [State.tookFailure, ← hs]

theorem State.blocked_of_supply {s : State} (hs : s.supply = []) (d : Dest) :
    s.blocked d = { s with request := some d } := by
  rw [State.blocked, ← hs]

theorem serveInput_command (d : Dest) {c : DebugCommand} (hc : c.isLoadState = false) (rest : List HostAnswer)
    (s : State) : serveInput d (.command c :: rest) s = serveInput d rest (s.debugged c) :=
  serveInput_commands d (cmds := [c]) (by simpa using hc) rest s

/-- R198: after debug commands alone the IN is blocked. -/
theorem serveInput_onlyCommands (d : Dest) {cmds : List DebugCommand} (hc : ∀ c ∈ cmds, c.isLoadState = false)
    (s : State) : serveInput d (cmds.map .command) s = .next ((cmds.foldl State.debugged s).blocked d) := by
  rw [← List.append_nil (cmds.map _), serveInput_commands d hc]
  rfl

/-- R199: an IN with a legal destination serves the answers in the supply. -/
theorem exec_inp_of_supply {s : State} {a : Operand} {d : Dest} {answers : List HostAnswer} (ha : dst a = .ok d)
    (hs : s.supply = answers) : exec (.inp a) s = serveInput d answers s := by
  rw [exec, execInp, ha, State.orRaise_ok, hs]

/-- Having taken the answers from the supply, an IN does not look at the supply any more. -/
theorem exec_inp_withSupply {a : Operand} {d : Dest} (ha : dst a = .ok d) (s : State) (answers : List HostAnswer) :
    exec (.inp a) { s with supply := answers } = serveInput d answers s :=
  (exec_inp_of_supply ha rfl).trans (serveInput_ports d answers s answers s.request)

/-! ## The blocked IN (R198, R230) -/

theorem step_of_request {s : State} {d : Dest} (he : s.ended = false) (hr : s.request = some d) :
    step s = serveInput d s.supply s := by
  simp only [step, nextAction, he, hr, resumeInput, Bool.false_eq_true, if_false]

theorem State.blocked_enabled (s : State) (d : Dest) : (s.blocked d).enabled = false := by
  simp [State.enabled, State.blocked]

/-- R230: answers that come while the IN is blocked are served as if they had been there when it was executed. -/
theorem step_blocked_withSupply {s : State} (he : s.ended = false) (d : Dest) (answers : List HostAnswer) :
    step { s.blocked d with supply := answers } = serveInput d answers s := by
  rw [step_of_request (s := { s.blocked d with supply := answers }) he rfl]
  exact serveInput_ports d answers s answers (some d)

/-- R198: with no new answer a blocked IN stays as it is. -/
theorem step_blocked {s : State} (he : s.ended = false) (d : Dest) : step (s.blocked d) = .next (s.blocked d) :=
  step_blocked_withSupply he d []

end Sys2Proof.Machine

namespace Sys2Proof.Proofs

open Sys2Proof.Machine

/-- Settles O37: with a legal destination both sides serve the answers after the command on the state the command
leaves; with an invalid one the IN faults before it looks at the supply. -/
theorem commandLeavesTheInOutstanding : Obligations.CommandLeavesTheInOutstanding := by
  intro s a c rest hc
  cases ha : dst a with
  | ok d =>
    show _ = exec (.inp a) { s.debugged c with supply := rest }
    rw [exec_inp_withSupply ha, exec_inp_withSupply ha, serveInput_command d hc]
  | error e =>
    rw [exec, execInp, ha]
    rfl

/-- Settles O38: after the commands the IN is blocked on the state they leave, which is not ended; there the step is the
IN served with whatever is in the supply (`step_blocked_withSupply`). -/
theorem blockingIsTransparent : Obligations.BlockingIsTransparent := by
  intro s a d cmds later ha hb hc
  obtain ⟨hrun, hexit, -⟩ := s.betweenInstructions_iff.1 hb
  have kept := State.debuggedAll_kept hc s
  have he : (cmds.foldl State.debugged s).ended = false :=
    (State.ended_eq_false_iff _).2 ⟨kept.status.trans hrun, kept.exitRequested.trans hexit⟩
  refine ⟨(cmds.foldl State.debugged s).blocked d, ?blocks, kept.status.trans hrun, kept.pc, kept.stack, kept.output,
    State.blocked_enabled _ d, run_of_fixed core (step_blocked he d), ?resumes⟩
  case blocks => rw [exec_inp_withSupply ha, serveInput_onlyCommands d hc]
  case resumes => rw [step_blocked_withSupply he, exec_inp_withSupply ha, serveInput_commands d hc]

/-- Settles O34: OUT resolves its one operand as a value and hands it to the output port. -/
theorem outEmitsTheValue : Obligations.OutEmitsTheValue := by
  refine ⟨oneValueOperand_of_orRaise (fun _ => rfl) rfl exec_out, fun s a v ha => ?_⟩
  rw [exec_out, ha, State.orRaise_ok]
  rfl

/-- Settles O35, by the destination operand first and then by the first answer in the supply. -/
theorem inWritesTheByte : Obligations.InWritesTheByte := by
  refine ⟨fun _ => rfl, fetchFaults_of_arity rfl, fun _ _ => rfl, fun s a d rest ha =>
    ⟨fun b hs => ?byte, fun hs => ?failure, fun hs => ?none⟩⟩ <;> rw [exec_inp_of_supply ha hs, serveInput]
  case byte => rw [State.tookByte_eq]
  case failure => rw [State.tookFailure_of_supply hs]
  case none => rw [State.blocked_of_supply hs]

end Sys2Proof.Proofs

/-! The proofs of the families 60_exceptions and 70_reset_and_hazards: the one cause of every fault, what a fault leaves
unchanged, the exit, the two refusals, the debug port's reads and writes, and the launch of an image. -/

namespace Sys2Proof

theorem Instr.operandsAll_eq_all (p : Operand → Bool) (i : Instr) : i.operandsAll p = i.operands.all p := by
  cases i <;> simp [Instr.operandsAll, Instr.operands, Bool.and_assoc]

/-- R97: the raw value of an invalid operand that cells encode is above 32775. -/
theorem Instr.lt_of_invalid_mem_operands {i : Instr} (he : i.encodable = true) {raw : Cell}
    (hmem : Operand.invalid raw ∈ i.operands) : 32775 < raw.toNat := by
  rw [Instr.encodable, Instr.operandsAll_eq_all, List.all_eq_true] at he
  exact of_decide_eq_true (he _ hmem)

end Sys2Proof

namespace Sys2Proof.Machine

open Statements

/-! ## The fetch and its faults (R95 steps 3 and 4) -/

theorem State.encodable_of_fetch {s : State} {i : Instr} (h : s.fetch = .run i) : i.encodable = true := by
  unfold State.fetch at h
  split at h <;> cases h
  exact (decode_instr ‹_›).2

/-- R211: an opcode cell above 21 is no instruction's, whatever cells follow it. -/
theorem State.fetch_of_21_lt {s : State} (hpc : s.pc.toNat < 32768) (hop : 21 < (s.cellAt s.pc.toNat).toNat) :
    s.fetch = .fault (.invalidOperation (s.cellAt s.pc.toNat)) := by
  have hcells : s.fetchCells = s.cellAt s.pc.toNat :: s.cellsFrom (s.pc.toNat + 1) 3 := s.cellsFrom_succ hpc 3
  rw [State.fetch, hcells, decode_of_21_lt hop]

theorem step_of_fetch_fault {s : State} {e : FaultKind} (hb : s.betweenInstructions = true)
    (hpc : s.pc.toNat < 32768) (hf : s.fetch = .fault e) : step s = .next (s.markStarted.raise e) := by
  rw [step, nextAction_fetch hb hpc, hf]

theorem cause_of_fetch_fault {s : State} {e : FaultKind} (hpc : s.pc.toNat < 32768) (h : s.fetch = .fault e) :
    Cause s e := by
  rcases State.fetch_cases hpc with ⟨i, -, hf, -⟩ | ⟨hop, hf⟩ | ⟨hf, hcells⟩ <;> rw [hf] at h <;> cases h
  · exact ⟨rfl, hop⟩
  · exact hcells

/-- U13: a `pc` above the sentinel has no meaning. -/
theorem nextAction_refuse {s : State} (hb : s.betweenInstructions = true) (hpc : 32768 < s.pc.toNat) :
    nextAction s = .refuse .stateWithoutMeaning := by
  obtain ⟨hrun, hexit, hreq⟩ := s.betweenInstructions_iff.1 hb
  have hne : s.pc ≠ 32768#16 := fun e => by simp [e] at hpc
  simp [nextAction, s.ended_eq_false_iff.2 ⟨hrun, hexit⟩, hreq, hne, hpc]

/-! ## An IN that faults (R199, R215) -/

/-- Of the ways an IN is served only a failure answer, after debug commands alone, faults. -/
theorem serveInput_faulted {d : Dest} {answers : List HostAnswer} {s t : State} {r : FaultRecord}
    (hnf : ∀ r, s.status ≠ .faulted r) (h : serveInput d answers s = .next t) (ht : t.status = .faulted r) :
    ∃ (cmds : List DebugCommand) (rest : List HostAnswer), answers = cmds.map .command ++ .failure :: rest ∧
      r = ⟨.readInputErr, s.pc⟩ ∧ t = (cmds.foldl State.debugged s).tookFailure rest := by
  obtain ⟨cmds, rest, rfl, hc, hend⟩ := serveInput_next h
  have kept := State.debuggedAll_kept hc s
  have hnf' : (cmds.foldl State.debugged s).status ≠ .faulted r := kept.status ▸ hnf r
  rcases hend with ⟨-, rfl⟩ | ⟨b, later, -, rfl⟩ | ⟨later, rfl, rfl⟩ | ⟨later, -, rfl⟩
  · exact absurd ht hnf'
  · exact absurd (by simpa [State.tookByte] using ht) hnf'
  · refine ⟨cmds, later, rfl, ?_, rfl⟩
    rw [← kept.pc]
    exact (RunStatus.faulted.inj ht).symm
  · exact absurd ht hnf'

/-- No debug command looks at the mark `started`, or changes it. -/
theorem State.debugged_markStarted (s : State) (c : DebugCommand) :
    s.markStarted.debugged c = (s.debugged c).markStarted := by
  cases c with
  | writeReg k v =>
    simp only [State.debugged, debugCommand, debugWriteReg]
    split_ifs <;> rfl
  | writeMem a v =>
    simp only [State.debugged, debugCommand, debugWriteMem]
    split_ifs <;> rfl
  | loadState saved =>
    have hfits : saved.fits s.markStarted = saved.fits s := rfl
    simp only [State.debugged, debugCommand, debugLoadState, hfits]
    split_ifs <;> rfl
  | _ => rfl

theorem State.debuggedAll_markStarted (cmds : List DebugCommand) (s : State) :
    cmds.foldl State.debugged s.markStarted = (cmds.foldl State.debugged s).markStarted :=
  List.foldl_hom State.markStarted State.debugged_markStarted

/-! ## The faults an instruction can raise (R210, R212 to R214) -/

theorem aluRem_error {u v : Word} {e : FaultKind} (h : aluRem u v = .error e) : v = 0#15 ∧ e = .divideByZero := by
  by_cases hv : v = 0#15
  · subst hv
    cases h
    exact ⟨rfl, rfl⟩
  · rw [aluRem_of_ne_zero u hv] at h
    cases h

theorem loadWord_error {s : State} {ea : Word} {e : FaultKind} (h : loadWord s ea = .error e) :
    32767 < (s.cellAt ea.toNat).toNat ∧ e = .wordRange (s.cellAt ea.toNat) := by
  by_cases hcell : 32767 < (s.cellAt ea.toNat).toNat
  · rw [loadWord_of_not_word hcell] at h
    cases h
    exact ⟨hcell, rfl⟩
  · rw [loadWord_of_word hcell] at h
    cases h

/-- D11: of the CALLs that lie in memory only the one in the last two cells has no return address. -/
theorem returnAddress_error {s : State} {e : FaultKind} (hcells : s.pc.toNat + 2 ≤ 32768)
    (h : returnAddress s = .error e) : s.pc = 32766#16 ∧ e = .wordRange 32768#16 := by
  rcases Nat.lt_or_ge 32765 s.pc.toNat with hpc | hpc
  · have htop : s.pc = 32766#16 := BitVec.eq_of_toNat_eq (by simp only [BitVec.toNat_ofNat]; omega)
    rw [returnAddress_of_top htop] at h
    cases h
    exact ⟨htop, rfl⟩
  · rw [returnAddress_of_le hpc] at h
    cases h

/-- Where the result is a faulted state, its fault is one that `P` allows. -/
def FaultsOnlyBy (P : FaultKind → Prop) (x : Result) : Prop :=
  ∀ t r, x = .next t → t.status = .faulted r → P r.kind

section FaultsOnlyBy

variable {P : FaultKind → Prop} {s : State}

theorem FaultsOnlyBy.next {t : State} (h : ∀ r, t.status ≠ .faulted r) : FaultsOnlyBy P (.next t) := by
  rintro _ r ⟨⟩ ht
  exact absurd ht (h r)

theorem FaultsOnlyBy.raise {e : FaultKind} (h : P e) : FaultsOnlyBy P (.next (s.raise e)) := by
  rintro _ _ ⟨⟩ ⟨⟩
  exact h

theorem FaultsOnlyBy.orRaise {α : Type} {x : Except FaultKind α} {go : α → Result} (herr : ∀ e, x = .error e → P e)
    (hgo : ∀ v, x = .ok v → FaultsOnlyBy P (go v)) : FaultsOnlyBy P (s.orRaise x go) := by
  cases x with
  | error e => exact .raise (herr e rfl)
  | ok v => exact hgo v rfl

theorem FaultsOnlyBy.push {v : Word} {go : State → Result}
    (hfull : ∀ n, s.stackCapacity = some n → n ≤ s.stack.length → P .stackOverflow)
    (hgo : FaultsOnlyBy P (go { s with stack := s.stack ++ [v] })) :
    FaultsOnlyBy P (s.orRaise (s.push v) go) := by
  rcases s.push_cases v with ⟨-, hp⟩ | ⟨⟨n, hn, hlen⟩, hp⟩ <;> rw [hp]
  · exact hgo
  · exact .raise (hfull n hn hlen)

variable {ops : List Operand} (hreg : ∀ raw, Operand.invalid raw ∈ ops → P (.invalidRegister raw))
include hreg

theorem FaultsOnlyBy.val {o : Operand} {go : Word → Result} (ho : o ∈ ops)
    (hgo : ∀ v, s.val o = .ok v → FaultsOnlyBy P (go v)) : FaultsOnlyBy P (s.orRaise (s.val o) go) := by
  refine .orRaise (fun e he => ?_) hgo
  obtain ⟨raw, rfl, rfl⟩ := State.val_error he
  exact hreg raw ho

theorem FaultsOnlyBy.dst {o : Operand} {go : Dest → Result} (ho : o ∈ ops)
    (hgo : ∀ d, dst o = .ok d → FaultsOnlyBy P (go d)) : FaultsOnlyBy P (s.orRaise (dst o) go) := by
  refine .orRaise (fun e he => ?_) hgo
  obtain ⟨raw, rfl, rfl⟩ := dst_error he
  exact hreg raw ho

variable (hnf : ∀ r, s.status ≠ .faulted r)
include hnf

theorem FaultsOnlyBy.unaryOp {f : Word → Except FaultKind Word} {a b : Operand} (hops : ops = [a, b])
    (hf : ∀ u e, s.val b = .ok u → f u = .error e → P e) : FaultsOnlyBy P (unaryOp f a b s) :=
  .dst hreg (by simp [hops]) fun d _ => .val hreg (by simp [hops]) fun u hu => .orRaise (hf u · hu) fun r _ =>
    .next (by simpa using hnf)

theorem FaultsOnlyBy.binaryOp {f : Word → Word → Except FaultKind Word} {a b c : Operand} (hops : ops = [a, b, c])
    (hf : ∀ u v e, s.val c = .ok v → f u v = .error e → P e) : FaultsOnlyBy P (binaryOp f a b c s) :=
  .dst hreg (by simp [hops]) fun d _ => .val hreg (by simp [hops]) fun u _ => .val hreg (by simp [hops]) fun v hv =>
    .orRaise (hf u v · hv) fun r _ => .next (by simpa using hnf)

end FaultsOnlyBy

/-- R210: an instruction that the fetch has found, and so lies in memory, faults only for one of the causes. -/
theorem exec_faultsOnlyBy_cause {s : State} {i : Instr} (hf : s.fetch = .run i) (hnf : ∀ r, s.status ≠ .faulted r)
    (hcells : s.pc.toNat + (encode i).length ≤ 32768) : FaultsOnlyBy (Cause s) (exec i s) := by
  have hreg : ∀ raw, Operand.invalid raw ∈ i.operands → Cause s (.invalidRegister raw) := fun raw hmem =>
    ⟨i, hf, hmem, Instr.lt_of_invalid_mem_operands (State.encodable_of_fetch hf) hmem⟩
  have hsnd {a b : Operand} : b ∈ [a, b] := List.mem_cons_of_mem _ List.mem_cons_self
  cases i with
  | halt => exact .next nofun
  | set a b => exact .unaryOp hreg hnf rfl nofun
  | push a =>
    exact .val hreg List.mem_cons_self fun v _ => .push (fun n hn hlen => ⟨⟨a, .inl hf⟩, n, hn, hlen⟩) (.next hnf)
  | pop a =>
    refine .dst hreg List.mem_cons_self fun d _ => ?_
    rcases s.pop_cases with ⟨hs, hp⟩ | ⟨below, v, -, hp⟩ <;> rw [hp]
    · exact .raise ⟨a, hf, hs⟩
    · exact .next (by simpa using hnf)
  | eq a b c => exact .binaryOp hreg hnf rfl nofun
  | gt a b c => exact .binaryOp hreg hnf rfl nofun
  | jmp a => exact .val hreg List.mem_cons_self fun t _ => .next hnf
  | jt a b =>
    refine .val hreg List.mem_cons_self fun u _ => .val hreg hsnd fun t _ => ?_
    cases isNonzero u <;> exact .next hnf
  | jf a b =>
    refine .val hreg List.mem_cons_self fun u _ => .val hreg hsnd fun t _ => ?_
    cases isNonzero u <;> exact .next hnf
  | add a b c => exact .binaryOp hreg hnf rfl nofun
  | mult a b c => exact .binaryOp hreg hnf rfl nofun
  | mod a b c =>
    refine .binaryOp hreg hnf rfl fun u v e hv he => ?_
    obtain ⟨rfl, rfl⟩ := aluRem_error he
    exact ⟨a, b, c, hf, hv⟩
  | and a b c => exact .binaryOp hreg hnf rfl nofun
  | or a b c => exact .binaryOp hreg hnf rfl nofun
  | not a b => exact .unaryOp hreg hnf rfl nofun
  | rmem a b =>
    refine .unaryOp hreg hnf rfl fun ea e hea he => ?_
    obtain ⟨hcell, rfl⟩ := loadWord_error he
    exact .inl ⟨a, b, ea, hf, hea, rfl, hcell⟩
  | wmem a b =>
    refine .val hreg List.mem_cons_self fun ea _ => .val hreg hsnd fun v _ => ?_
    rw [State.memWrite_word]
    exact .next hnf
  | call a =>
    refine .val hreg List.mem_cons_self fun t _ => .orRaise (fun e he => ?_) fun r _ =>
      .push (fun n hn hlen => ⟨⟨a, .inr hf⟩, n, hn, hlen⟩) (.next hnf)
    obtain ⟨hpc, rfl⟩ := returnAddress_error hcells he
    exact .inr ⟨a, hf, hpc, rfl⟩
  | ret =>
    show FaultsOnlyBy _ (execRet s)
    unfold execRet
    rcases s.pop_cases with ⟨-, hp⟩ | ⟨below, w, -, hp⟩ <;> rw [hp]
    · exact .next nofun
    · exact .next hnf
  | out a => exact .val hreg List.mem_cons_self fun v _ => .next hnf
  | inp a =>
    refine .dst hreg List.mem_cons_self fun d _ t r h ht => ?_
    obtain ⟨cmds, rest, hsup, rfl, -⟩ := serveInput_faulted hnf h ht
    exact ⟨.inr ⟨a, hf⟩, cmds, rest, hsup⟩
  | noop => exact .next hnf

/-! ## The debug port (R231, R232) -/

theorem debugWriteReg_of_lt (s : State) (k : RegIndex) (v : Word) :
    debugWriteReg s k.val v.toNat = (s.setReg k v, .done) := by
  simp [debugWriteReg, v.isLt]

theorem debugWriteReg_of_le (s : State) {k v : Nat} (h : 8 ≤ k ∨ 32768 ≤ v) :
    debugWriteReg s k v = (s, .refused) := by
  unfold debugWriteReg
  split
  · rename_i hk
    have hk : k < 8 := hk
    exact if_neg (show ¬ v < 32768 by omega)
  · rfl

theorem debugWriteMem_of_lt (s : State) {a : Nat} (ha : a < 32768) (v : Cell) :
    debugWriteMem s a v.toNat = (s.setCell a v, .done) := by
  rw [debugWriteMem, if_pos ha, if_pos v.isLt, BitVec.ofNat_toNat, BitVec.setWidth_eq]

theorem debugWriteMem_of_value_le (s : State) {a v : Nat} (ha : a < 32768) (hv : 65536 ≤ v) :
    debugWriteMem s a v = (s, .refused) := by
  rw [debugWriteMem, if_pos ha, if_neg (Nat.not_lt.2 hv)]

theorem debugWriteMem_of_le (s : State) {a : Nat} (ha : 32768 ≤ a) (v : Nat) :
    debugWriteMem s a v = (s, .memOutOfBounds) := if_neg (Nat.not_lt.2 ha)

/-! ## The words of an image (R56, R257) -/

theorem imageWords_length (image : List (BitVec 8)) : (imageWords image).length = image.length / 2 := by
  induction image using imageWords.induct with
  | case1 low high rest ih => simp only [imageWords, List.length_cons, ih]; omega
  | case2 low => simp [imageWords]
  | case3 => rfl

theorem imageWords_getElem? {image : List (BitVec 8)} {i : Nat} {low high : BitVec 8}
    (hlow : image[2 * i]? = some low) (hhigh : image[2 * i + 1]? = some high) :
    (imageWords image)[i]? = some (BitVec.ofNat 16 (low.toNat + 256 * high.toNat)) := by
  induction image using imageWords.induct generalizing i with
  | case1 b c rest ih =>
    cases i with
    | zero => cases hlow; cases hhigh; rfl
    | succ i => exact ih hlow hhigh
  | case2 b => simp at hhigh
  | case3 => simp at hlow

end Sys2Proof.Machine

namespace Sys2Proof.Proofs

open Sys2Proof.Machine

/-- Settles O48: the step's own faults are those of the fetch (`cause_of_fetch_fault`), and those of the instruction it
runs have one cause each (`exec_faultsOnlyBy_cause`). -/
theorem everyFaultHasItsCause : Obligations.EveryFaultHasItsCause := by
  intro s t r hrun hstep ht
  have hnf : ∀ r, s.status ≠ .faulted r := by simp [hrun]
  rcases step_next hstep with
    ⟨-, rfl⟩ | ⟨-, d, hreq, hserve⟩ | ⟨-, -, rfl⟩ | ⟨-, hpc, e, hf, rfl⟩ | ⟨-, i, hf, hcells, hexec⟩
  · exact absurd ht (hnf r)
  · obtain ⟨cmds, rest, hsup, rfl, -⟩ := serveInput_faulted hnf hserve ht
    exact ⟨.inl (by simp [hreq]), cmds, rest, hsup⟩
  · cases ht
  · cases ht
    exact cause_of_fetch_fault hpc hf
  · exact exec_faultsOnlyBy_cause (s := s.markStarted) hf hnf hcells t r hexec ht

/-- Settles O47: every fault but an IN's is raised on the state as it was, and an IN's on what the debug commands before
the failure left, which look at neither `started` nor the ports. -/
theorem faultsArePrecise : Obligations.FaultsArePrecise := by
  intro s t r hrun hstep ht
  have hnf : ∀ r, s.status ≠ .faulted r := by simp [hrun]
  rcases step_next hstep with
    ⟨-, rfl⟩ | ⟨-, d, hreq, hserve⟩ | ⟨-, -, rfl⟩ | ⟨-, -, e, -, rfl⟩ | ⟨-, i, hf, -, hexec⟩
  · exact absurd ht (hnf r)
  · obtain ⟨cmds, rest, hsup, rfl, rfl⟩ := serveInput_faulted hnf hserve ht
    refine ⟨rfl, cmds, .failure :: rest, hsup, ?_, .inr (.inl (by simp [hreq]))⟩
    rw [← ht]
    rfl
  · cases ht
  · cases ht
    exact ⟨rfl, [], s.supply, rfl, rfl, .inl rfl⟩
  · cases exec_next hexec with
    | raised e =>
      cases ht
      exact ⟨rfl, [], s.supply, rfl, rfl, .inl rfl⟩
    | served a d _ hi _ hserve =>
      obtain ⟨cmds, rest, hsup, rfl, rfl⟩ := serveInput_faulted (s := s.markStarted) hnf hserve ht
      refine ⟨rfl, cmds, .failure :: rest, hsup, ?_, .inr (.inr ⟨a, hi ▸ hf⟩)⟩
      rw [← ht, State.debuggedAll_markStarted]
      rfl
    | _ => simp [hrun] at ht

/-- Settles O7: the fetch of such a cell faults (`State.fetch_of_21_lt`), and raising a fault changes the status
alone. -/
theorem opcodeAbove21Faults : Obligations.OpcodeAbove21Faults := fun s hb hpc hop =>
  ⟨_, step_of_fetch_fault hb hpc (s.fetch_of_21_lt hpc hop), rfl⟩

/-- Settles O36: with the exit taken the run has ended, and an ended state is a fixed point of the step. -/
theorem exitEndsTheRunAtTheIn : Obligations.ExitEndsTheRunAtTheIn := by
  intro s a d rest ha hrun hs
  refine ⟨s.tookExit rest, exec_inp_of_supply ha hs, rfl, ?outcome,
    run_of_fixed core (step_of_ended (s := s.tookExit rest) rfl)⟩
  simp [State.outcome, State.tookExit, hrun]

/-- Settles O39, by the first answer in the supply, and by the bound the next action puts on `pc`. -/
theorem whatHasNoMeaningIsRefused : Obligations.WhatHasNoMeaningIsRefused :=
  ⟨fun _ _ _ _ _ ha hs => exec_inp_of_supply ha hs, fun s hb hpc => by rw [step, nextAction_refuse hb hpc]⟩

/-- Settles O59, by the bounds tests of the port; what it refuses is the spec's own decision D14. -/
theorem debugPortReadsAndWrites : Obligations.DebugPortReadsAndWrites := by
  intro s
  refine ⟨fun k => ?readReg, fun k hk => ?readNoReg, debugWriteReg_of_lt s, fun _ _ => debugWriteReg_of_le s,
    fun a ha => ?readMem, fun _ v ha => debugWriteMem_of_lt s ha v, fun _ _ => debugWriteMem_of_value_le s,
    fun a v ha => ⟨?readNoMem, debugWriteMem_of_le s ha v⟩, rfl, fun _ hc => (State.debugged_kept hc s).stack⟩
  case readReg => simp [debugCommand, debugReadReg]
  case readNoReg => simp [debugCommand, debugReadReg, Nat.not_lt.2 hk]
  case readMem => rw [debugCommand, debugReadMem, s.memRead_of_lt ha]
  case readNoMem => rw [debugCommand, debugReadMem, s.memRead_of_le ha]

/-- Settles O56: the image's words stand in a memory made from cells, whose reads and canonical form are known; all
other fields are those of the reset state, which meets the invariants. -/
theorem imageIsLaunchedFromZero : Obligations.ImageIsLaunchedFromZero := by
  intro image
  have hwords := imageWords_length image
  refine ⟨fun hlong => if_pos hlong, fun hlen hodd => ?odd, fun hlen heven =>
    ⟨{ State.reset with mem := Memory.ofCells 0 (imageWords image) }, ?launched, rfl, ?word, ?zero, ?inv⟩⟩
  case odd => rw [launch, if_neg (Nat.not_lt.2 hlen), if_pos hodd]
  case launched => rw [launch, if_neg (Nat.not_lt.2 hlen), if_neg (by omega)]
  case word =>
    intro i low high hlow hhigh
    have hb : low.toNat + 256 * high.toNat < 65536 := by have := low.isLt; have := high.isLt; omega
    rw [State.cellAt, Memory.read_ofCells, if_pos (Nat.zero_le i), Nat.sub_zero, List.getD_eq_getElem?_getD,
      imageWords_getElem? hlow hhigh, Option.getD_some, BitVec.toNat_ofNat, Nat.mod_eq_of_lt hb]
  case zero =>
    intro i hi
    rw [State.cellAt, Memory.read_ofCells, if_pos (Nat.zero_le i), List.getD_eq_default _ _ (by omega)]
    rfl
  case inv => exact { State.reset_inv with memCanonical := Memory.wf_ofCells (by omega) }

end Sys2Proof.Proofs
